-- ==== Sys2Proof/Word.lean ====
section
/-! DEFINITION. The word types of the block: 32-bit words, bytes, binary32 encodings, complex samples, and one value
per port. -/

namespace Sys2Proof

/-- A 32-bit word: a command word, a payload word or a result value (30_encoding R70, R76). -/
abbrev Word := BitVec 32

/-- A byte of the FIFO storage (20_memory R50). -/
abbrev Byte := BitVec 8

/-- A binary32 value, held as its encoding: `bits(v)` of 00_scope R16 is the value itself. -/
abbrev F32 := BitVec 32

/-- `+0.0`, the encoding `0x00000000` (00_scope R16). -/
abbrev F32.zero : F32 := 0x00000000#32

/-- A complex sample `(I, Q)` of binary32 values (00_scope R16). -/
structure Sample where
  i : F32
  q : F32
  deriving DecidableEq, Repr, Inhabited

/-- The sample `(+0.0, +0.0)`. -/
def Sample.zero : Sample := ⟨F32.zero, F32.zero⟩

/-- The lanes of a complex sample: "the I lane of the output depends only on the I lane of the input, and the Q lane
only on Q" (41_filter R133). -/
inductive Lane where
  | i
  | q
  deriving DecidableEq, Repr, Inhabited

/-- One lane's value of a sample. -/
def Sample.lane (x : Sample) : Lane → F32
  | .i => x.i
  | .q => x.q

/-- The three ports, each driven by one agent (00_scope R5, 60_exceptions R216). -/
inductive Port where
  /-- P, the producer -/
  | producer
  /-- C, the consumer -/
  | consumer
  /-- K, the control agent -/
  | control
  deriving DecidableEq, Repr, Inhabited

/-- One value for each port. -/
structure PerPort (α : Type) where
  producer : α
  consumer : α
  control : α
  deriving DecidableEq, Repr, Inhabited

/-- The value of port `p`. -/
def PerPort.get {α : Type} (v : PerPort α) : Port → α
  | .producer => v.producer
  | .consumer => v.consumer
  | .control => v.control

/-- Replace the value of one port. -/
def PerPort.set {α : Type} (v : PerPort α) (p : Port) (x : α) : PerPort α :=
  match p with
  | .producer => { v with producer := x }
  | .consumer => { v with consumer := x }
  | .control => { v with control := x }

end Sys2Proof
end

