-- ==== Sys2Proof/Syntax.lean ====
section
/-! DEFINITION. The commands as syntax: one constructor per row of spec/opcode_table.json (30_encoding R77), and the
form in which a port takes a command. -/

namespace Sys2Proof

/-- The commands of 30_encoding R77 with their operands. `len` is the LEN field (R73); `payload` is the payload that
follows the command word (R75). -/
inductive Instr where
  /-- FIR.RESET (41_filter R137) -/
  | firReset
  /-- FIR.PROCESS (41_filter R138): `len` input complex samples, payload `I0, Q0, I1, Q1, ...` -/
  | firProcess (len : BitVec 24) (payload : List F32)
  /-- LT.RESET (42_level_tracker R162) -/
  | ltReset
  /-- LT.UPDATE (42_level_tracker R163): `p` is the payload word read as binary32 (R74) -/
  | ltUpdate (p : F32)
  /-- LT.READ (42_level_tracker R164) -/
  | ltRead
  /-- FIFO.RESET (40_fifo R105) -/
  | fifoReset
  /-- FIFO.WRITE (40_fifo R101): `len` bytes, payload the bytes in FIFO order -/
  | fifoWrite (len : BitVec 24) (payload : List Byte)
  /-- FIFO.READ (40_fifo R102): `len` bytes -/
  | fifoRead (len : BitVec 24)
  /-- FIFO.AVAIL_RD (40_fifo R106) -/
  | fifoAvailRd
  /-- FIFO.AVAIL_WR (40_fifo R107) -/
  | fifoAvailWr
  /-- PIPE.PROCESS (43_pipeline R180): `len` input complex samples, payload `I0, Q0, I1, Q1, ...` -/
  | pipeProcess (len : BitVec 24) (payload : List F32)
  deriving DecidableEq, Repr

/-- What a port takes: "one 32-bit command word followed by a payload whose length the word fixes" (30_encoding R70).
A payload is 32-bit words or bytes (R75); the list a command does not use is empty. Log 5. -/
structure Command where
  word : Word
  words : List Word
  bytes : List Byte
  deriving DecidableEq, Repr, Inhabited

end Sys2Proof
end

