-- ==== Sys2Proof/WellFormed.lean ====
section
/-! DEFINITION. Well-formed commands: the payload is as long as the LEN field says (30_encoding R75). The width of LEN
(R73) is in its type. -/

namespace Sys2Proof

/-- The payload length of 30_encoding R75: `2 * LEN` words for FIR.PROCESS and PIPE.PROCESS, `LEN` bytes for
FIFO.WRITE. The other commands' operands cannot be ill-formed. -/
def Instr.wf : Instr → Bool
  | .firReset => true
  | .firProcess len payload => payload.length == 2 * len.toNat
  | .ltReset => true
  | .ltUpdate _ => true
  | .ltRead => true
  | .fifoReset => true
  | .fifoWrite len payload => payload.length == len.toNat
  | .fifoRead _ => true
  | .fifoAvailRd => true
  | .fifoAvailWr => true
  | .pipeProcess len payload => payload.length == 2 * len.toNat

end Sys2Proof
end

