-- ==== Sys2Proof/Decode.lean ====
section
/-! DEFINITION. The opcode map (30_encoding R77), the decoder (R79) and the encoder. The decoder is total on every
command word and payload, and rejects by name. -/

namespace Sys2Proof

/-- The command formats (30_encoding R72, R73, R74). -/
inductive Format where
  /-- no operand: ARG must be 0 -/
  | n
  /-- length: ARG is LEN -/
  | l
  /-- value: ARG must be 0, one payload word -/
  | v
  deriving DecidableEq, Repr

/-- The rows of the opcode map (30_encoding R77). -/
inductive Opcode where
  | firReset
  | firProcess
  | ltReset
  | ltUpdate
  | ltRead
  | fifoReset
  | fifoWrite
  | fifoRead
  | fifoAvailRd
  | fifoAvailWr
  | pipeProcess
  deriving DecidableEq, Repr

/-- The column OP of 30_encoding R77. -/
def Opcode.code : Opcode → BitVec 8
  | .firReset => 0x01#8
  | .firProcess => 0x02#8
  | .ltReset => 0x10#8
  | .ltUpdate => 0x11#8
  | .ltRead => 0x12#8
  | .fifoReset => 0x20#8
  | .fifoWrite => 0x21#8
  | .fifoRead => 0x22#8
  | .fifoAvailRd => 0x23#8
  | .fifoAvailWr => 0x24#8
  | .pipeProcess => 0x30#8

/-- The column format of 30_encoding R77. -/
def Opcode.format : Opcode → Format
  | .firReset => .n
  | .firProcess => .l
  | .ltReset => .n
  | .ltUpdate => .v
  | .ltRead => .n
  | .fifoReset => .n
  | .fifoWrite => .l
  | .fifoRead => .l
  | .fifoAvailRd => .n
  | .fifoAvailWr => .n
  | .pipeProcess => .l

/-- The column ports of 30_encoding R77: where the command is legal (R78). -/
def Opcode.ports : Opcode → List Port
  | .firReset => [.producer]
  | .firProcess => [.producer]
  | .ltReset => [.producer]
  | .ltUpdate => [.producer]
  | .ltRead => [.producer, .consumer, .control]
  | .fifoReset => [.control]
  | .fifoWrite => [.producer]
  | .fifoRead => [.consumer]
  | .fifoAvailRd => [.producer, .consumer, .control]
  | .fifoAvailWr => [.producer, .consumer, .control]
  | .pipeProcess => [.producer]

/-- The column payload of 30_encoding R77, by R75: how many 32-bit words and how many bytes follow a command word
whose ARG is `arg`. -/
def Opcode.payload (o : Opcode) (arg : BitVec 24) : Nat × Nat :=
  match o with
  | .firReset => (0, 0)
  | .firProcess => (2 * arg.toNat, 0)
  | .ltReset => (0, 0)
  | .ltUpdate => (1, 0)
  | .ltRead => (0, 0)
  | .fifoReset => (0, 0)
  | .fifoWrite => (0, arg.toNat)
  | .fifoRead => (0, 0)
  | .fifoAvailRd => (0, 0)
  | .fifoAvailWr => (0, 0)
  | .pipeProcess => (2 * arg.toNat, 0)

/-- Every row of the opcode map. -/
def opcodes : List Opcode :=
  [.firReset, .firProcess, .ltReset, .ltUpdate, .ltRead, .fifoReset, .fifoWrite, .fifoRead, .fifoAvailRd,
   .fifoAvailWr, .pipeProcess]

/-- `OPMAP` of 30_encoding R79: the row of an OP, none where it is reserved (R80). -/
def opcodeOf (op : BitVec 8) : Option Opcode :=
  opcodes.find? fun o => o.code == op

/-- `OP = w[31:24]` (30_encoding R71). -/
def opField (w : Word) : BitVec 8 := w.extractLsb' 24 8

/-- `ARG = w[23:0]` (30_encoding R71). -/
def argField (w : Word) : BitVec 24 := w.extractLsb' 0 24

/-- `PL(OP, ARG)` of 30_encoding R75, in 32-bit words and in bytes: fixed by the word alone, and nothing for a
reserved OP. -/
def payloadLength (w : Word) : Nat × Nat :=
  match opcodeOf (opField w) with
  | none => (0, 0)
  | some o => o.payload (argField w)

/-- Why a command is not one of `Instr`. -/
inductive Reject where
  /-- the payload's length is not the one the word fixes: not a command of the block (30_encoding R75) -/
  | payloadMismatch
  /-- the OP is reserved: ILLEGAL (30_encoding R79, R80) -/
  | reservedOp
  /-- ARG is not 0 in format N or V: ILLEGAL (30_encoding R79) -/
  | nonZeroArg
  deriving DecidableEq, Repr

/-- The instruction of a row, given its ARG and payload (30_encoding R82: operands are taken unchanged). -/
def Opcode.instr (o : Opcode) (arg : BitVec 24) (words : List Word) (bytes : List Byte) : Instr :=
  match o with
  | .firReset => .firReset
  | .firProcess => .firProcess arg words
  | .ltReset => .ltReset
  | .ltUpdate => .ltUpdate (words.headD 0)
  | .ltRead => .ltRead
  | .fifoReset => .fifoReset
  | .fifoWrite => .fifoWrite arg bytes
  | .fifoRead => .fifoRead arg
  | .fifoAvailRd => .fifoAvailRd
  | .fifoAvailWr => .fifoAvailWr
  | .pipeProcess => .pipeProcess arg words

/-- Does the payload have the length that the word fixes (30_encoding R75)? -/
def Command.payloadFits (c : Command) : Bool :=
  c.words.length == (payloadLength c.word).1 && c.bytes.length == (payloadLength c.word).2

/-- The decoder of 30_encoding R79, less its port check, which each meaning makes (`Machine.onPorts`). The payload's
length is looked at first, since a command with another length is none of the block's (R75). -/
def decode (c : Command) : Except Reject Instr :=
  if c.payloadFits then
    match opcodeOf (opField c.word) with
    | none => .error .reservedOp
    | some o =>
      if o.format ≠ .l ∧ argField c.word ≠ 0 then .error .nonZeroArg
      else .ok (o.instr (argField c.word) c.words c.bytes)
  else .error .payloadMismatch

/-- The command word with the given fields: OP in bits 31..24, ARG in bits 23..0 (30_encoding R71). -/
def commandWord (o : Opcode) (arg : BitVec 24) : Word := o.code ++ arg

/-- The row of an instruction. -/
def Instr.opcode : Instr → Opcode
  | .firReset => .firReset
  | .firProcess _ _ => .firProcess
  | .ltReset => .ltReset
  | .ltUpdate _ => .ltUpdate
  | .ltRead => .ltRead
  | .fifoReset => .fifoReset
  | .fifoWrite _ _ => .fifoWrite
  | .fifoRead _ => .fifoRead
  | .fifoAvailRd => .fifoAvailRd
  | .fifoAvailWr => .fifoAvailWr
  | .pipeProcess _ _ => .pipeProcess

/-- The encoder: the command of an instruction, written from the tables of 30_encoding R75 and R77. -/
def encode : Instr → Command
  | .firReset => ⟨commandWord .firReset 0, [], []⟩
  | .firProcess len payload => ⟨commandWord .firProcess len, payload, []⟩
  | .ltReset => ⟨commandWord .ltReset 0, [], []⟩
  | .ltUpdate p => ⟨commandWord .ltUpdate 0, [p], []⟩
  | .ltRead => ⟨commandWord .ltRead 0, [], []⟩
  | .fifoReset => ⟨commandWord .fifoReset 0, [], []⟩
  | .fifoWrite len payload => ⟨commandWord .fifoWrite len, [], payload⟩
  | .fifoRead len => ⟨commandWord .fifoRead len, [], []⟩
  | .fifoAvailRd => ⟨commandWord .fifoAvailRd 0, [], []⟩
  | .fifoAvailWr => ⟨commandWord .fifoAvailWr 0, [], []⟩
  | .pipeProcess len payload => ⟨commandWord .pipeProcess len, payload, []⟩

/-- The command whose bits are those of `v`: the command word is bits 31..0, the payload the word fixes follows from
bit 32 on, 32 bits a payload word and 8 bits a payload byte. Bits above `nbits` are 0. Log 11. -/
def commandOfBits (nbits v : Nat) : Command :=
  let bits := v % 2 ^ nbits
  let word := BitVec.ofNat 32 bits
  let size := payloadLength word
  { word := word
    words := (List.range size.1).map fun j => BitVec.ofNat 32 (bits >>> (32 + 32 * j))
    bytes := (List.range size.2).map fun j => BitVec.ofNat 8 (bits >>> (32 + 8 * j)) }

/-- The instruction the decoder reads from a row's bits, numbered as spec/opcode_table.json numbers them. -/
def decodeTableWord (nbits w : Nat) : Option Instr :=
  match decode (commandOfBits nbits w) with
  | .ok i => some i
  | .error _ => none

end Sys2Proof
end

