-- ==== Sys2Proof/Config.lean ====
section
/-! DEFINITION. The configuration record of 00_scope R6 to R13, and what an implementation fixes that the spec leaves
open. The opaque constants have no body: nothing in Lean can tell their values, so what is proved holds for all. -/

namespace Sys2Proof

/-- The binary32 operations whose NaN results have an open encoding. -/
inductive FpOp where
  | add
  | sub
  | mul
  deriving DecidableEq, Repr, Inhabited

/-- Which encoding a NaN result has. 95_test_vectors LT-6b: "a NaN encoding (its payload is `ARITH`'s)". Log 4. -/
inductive NanRule where
  /-- every NaN result is the one NaN with this sign and fraction -/
  | fixed (sign : Bool) (fraction : BitVec 23)
  /-- each NaN result is a free value, a function of the operation and its operands -/
  | free
  deriving DecidableEq, Repr, Inhabited

/-- `ARITH`, the numerics of the FIR and LT units (00_scope R13). Log 3. -/
inductive Arith where
  /-- the reference binary32 arithmetic of 41_filter R134 and 42_level_tracker R161 -/
  | reference
  /-- another implementation's: the opaque functions `Config.implLane` and `Config.implLt`, the first of them only where
  41_filter R135 leaves the output open -/
  | implementation
  deriving DecidableEq, Repr, Inhabited

/-- The configuration record: "nothing in it is state" (00_scope section 3). -/
structure Config where
  /-- `H = h[0..T-1]` (R7); `T` (R6) is its length -/
  taps : List F32
  /-- `LOG2N` (R8) -/
  log2N : Nat
  /-- `ATTACK` (R9) -/
  attack : F32
  /-- `RELEASE` (R9) -/
  release : F32
  /-- `LEVEL_INIT` (R10) -/
  levelInit : F32
  /-- `MIN_IN` (R11) -/
  minIn : Nat
  /-- `READ_TIMEOUT` (R12), which the untimed model never reads -/
  readTimeout : Nat
  /-- `ARITH` (R13) -/
  arith : Arith
  /-- the NaN encodings that `ARITH` gives -/
  nan : NanRule
  deriving DecidableEq, Repr, Inhabited

/-- The sign of a NaN result under `NanRule.free`: a free value. -/
opaque Config.nanSign : FpOp → F32 → F32 → Bool

/-- The fraction of a NaN result under `NanRule.free`: a free value. -/
opaque Config.nanFraction : FpOp → F32 → F32 → BitVec 23

/-- One lane of `ARITH.fir` of an implementation that is not the reference, where its sums round: "a total function of
`H` and the window alone" (41_filter R135), the window being the lane's own values (R133) at the active taps (R143). A
free value: the spec states no tolerance. -/
opaque Config.implLane : Lane → List F32 → List F32 → F32

/-- `ARITH.lt` of an implementation that is not the reference, a function of the coefficient, the level and the input
power (42_level_tracker R161). A free value. -/
opaque Config.implLt : F32 → F32 → F32 → F32

/-- The configuration values of the hardware, which the spec leaves OPEN: a free value. `Config.hardware` keeps it
where it meets the spec's constraints. Log 2. -/
opaque Config.hardwareRaw : Config

end Sys2Proof
end

