-- ==== Sys2Proof/Machine/Float.lean ====
section
/-! DEFINITION. The binary32 arithmetic of 00_scope R16: `rn`, `+f`, `-f`, `*f` and the IEEE comparisons. Every finite
binary32 value is a whole multiple of 2^-149, so a magnitude is a Nat in that unit and sums and products are exact
before they are rounded. The details of IEEE 754 that R16 names without stating them are log 13. -/

namespace Sys2Proof

/-- The sign bit. -/
def fpSign (w : F32) : Bool := w.getLsbD 31

/-- The exponent field. -/
def fpExp (w : F32) : Nat := (w.extractLsb' 23 8).toNat

/-- The fraction field. -/
def fpFrac (w : F32) : Nat := (w.extractLsb' 0 23).toNat

/-- A NaN: exponent field all ones, fraction not 0. -/
def fpIsNaN (w : F32) : Bool := fpExp w == 255 && fpFrac w != 0

/-- An infinity: exponent field all ones, fraction 0. -/
def fpIsInf (w : F32) : Bool := fpExp w == 255 && fpFrac w == 0

/-- A finite value: exponent field not all ones. -/
def fpIsFinite (w : F32) : Bool := fpExp w != 255

/-- A zero of either sign. -/
def fpIsZero (w : F32) : Bool := fpExp w == 0 && fpFrac w == 0

/-- The magnitude of a finite value in units of 2^-149. For an infinity it is 2^277, above every finite one, so
that magnitudes order infinities too. -/
def fpMag (w : F32) : Nat :=
  if fpExp w = 0 then fpFrac w else (2 ^ 23 + fpFrac w) * 2 ^ (fpExp w - 1)

/-- The value of a finite encoding in units of 2^-149, a zero's being 0 whatever its sign. -/
def fpVal (w : F32) : Int := if fpSign w then -(fpMag w : Int) else fpMag w

/-- IEEE `a > b`: false where either is a NaN (41_filter R136, 42_level_tracker R161). -/
def fpGt (a b : F32) : Bool := !fpIsNaN a && !fpIsNaN b && decide (fpVal b < fpVal a)

/-- IEEE `a = b`: false where either is a NaN, and the zeros are equal. -/
def fpEq (a b : F32) : Bool := !fpIsNaN a && !fpIsNaN b && decide (fpVal a = fpVal b)

/-- An encoding from a sign and the 31 bits below it. -/
def fpPack (negative : Bool) (magBits : Nat) : F32 :=
  BitVec.ofNat 32 (magBits + if negative then 2 ^ 31 else 0)

/-- How many low bits of `n` a rounding to binary32 drops, for an `n` in units of 2^-(149+sh): all but 24, and at
least the `sh` that lie below the unit. -/
def fpDrop (n sh : Nat) : Nat := max (n.log2 - 23) sh

/-- `n` with its low `q` bits rounded off to the nearest, ties to even. -/
def fpNearest (n q : Nat) : Nat :=
  if 2 ^ q < 2 * (n % 2 ^ q) ∨ (2 ^ q = 2 * (n % 2 ^ q) ∧ n / 2 ^ q % 2 = 1) then n / 2 ^ q + 1 else n / 2 ^ q

/-- `rn` of 00_scope R16 on magnitudes: the 31 encoding bits of the binary32 value nearest to `n` units of
2^-(149+sh), ties to even; from half an ulp above the greatest finite value on, the infinity. A kept significand of
2^23 or more carries into the exponent field by itself. -/
def fpRound (n sh : Nat) : Nat :=
  min ((fpDrop n sh - sh) * 2 ^ 23 + fpNearest n (fpDrop n sh)) 0x7F800000

/-- A NaN with the given sign and a fraction that is not 0. -/
def fpMakeNaN (sign : Bool) (fraction : BitVec 23) : F32 :=
  fpPack sign (0x7F800000 + if fraction = 0 then 1 else fraction.toNat)

/-- The NaN an operation gives. Log 4. -/
def fpNaN (r : NanRule) (op : FpOp) (a b : F32) : F32 :=
  match r with
  | .fixed sign fraction => fpMakeNaN sign fraction
  | .free => fpMakeNaN (Config.nanSign op a b) (Config.nanFraction op a b)

/-- `-a`: the sign bit flipped. -/
def fpNeg (a : F32) : F32 := a ^^^ 0x80000000#32

/-- The sum of two values, `op` naming the operation that a NaN result belongs to. An exact sum of 0 is `+0.0`,
except that two negative zeros give `-0.0`. -/
def fpSum (r : NanRule) (op : FpOp) (a b : F32) : F32 :=
  if fpIsNaN a || fpIsNaN b then fpNaN r op a b
  else if fpIsInf a then
    if fpIsInf b && fpSign a != fpSign b then fpNaN r op a b else a
  else if fpIsInf b then b
  else if fpVal a + fpVal b = 0 then fpPack (fpSign a && fpSign b) 0
  else fpPack (decide (fpVal a + fpVal b < 0)) (fpRound (fpVal a + fpVal b).natAbs 0)

/-- `a +f b` (00_scope R16). -/
def fpAdd (r : NanRule) (a b : F32) : F32 := fpSum r .add a b

/-- `a -f b` (00_scope R16): the sum with `-b`. -/
def fpSub (r : NanRule) (a b : F32) : F32 := fpSum r .sub a (fpNeg b)

/-- `a *f b` (00_scope R16). The product of two magnitudes is in units of 2^-298. -/
def fpMul (r : NanRule) (a b : F32) : F32 :=
  if fpIsNaN a || fpIsNaN b then fpNaN r .mul a b
  else if fpIsInf a || fpIsInf b then
    if fpIsZero a || fpIsZero b then fpNaN r .mul a b
    else fpPack (fpSign a != fpSign b) 0x7F800000
  else fpPack (fpSign a != fpSign b) (fpRound (fpMag a * fpMag b) 149)

/-- Does `a +f b` give the exact sum: finite operands whose sum is a binary32 value, or an infinite operand and no other
infinity against it? -/
def fpAddExact (r : NanRule) (a b : F32) : Bool :=
  !fpIsNaN (fpAdd r a b) &&
    (fpIsInf a || fpIsInf b || (fpIsFinite (fpAdd r a b) && decide (fpVal (fpAdd r a b) = fpVal a + fpVal b)))

/-- Does `a *f b` give the exact product: finite operands whose product is a binary32 value, or an infinite operand and
no zero? -/
def fpMulExact (r : NanRule) (a b : F32) : Bool :=
  !fpIsNaN (fpMul r a b) &&
    (fpIsInf a || fpIsInf b ||
      (fpIsFinite (fpMul r a b) && decide (fpVal (fpMul r a b) * 2 ^ 149 = fpVal a * fpVal b)))

end Sys2Proof
end

