-- ==== Sys2Proof/Machine/Params.lean ====
section
/-! DEFINITION. What the configuration determines: `T`, `c`, `S`, `N`, the constraints of 00_scope R6 to R12 and
41_filter R130, the hardware's configuration, and the example configuration EX7 of 95_test_vectors. -/

namespace Sys2Proof

/-- `T`, the tap count (00_scope R6). -/
def Config.tapCount (c : Config) : Nat := c.taps.length

/-- `c = (T-1)/2`, the centre index (41_filter R130). -/
def Config.centre (c : Config) : Nat := (c.tapCount - 1) / 2

/-- `h[k]` (00_scope R7). -/
def Config.tap (c : Config) (k : Nat) : F32 := c.taps.getD k F32.zero

/-- The active tap set `S`, in ascending order (41_filter R131): the centre and the taps at an odd distance from it. -/
def Config.activeTaps (c : Config) : List Nat :=
  (List.range c.tapCount).filter fun k => k == c.centre || (k + c.centre) % 2 == 1

/-- `N = 2^LOG2N`, the FIFO capacity in bytes (00_scope R8). -/
def Config.capacity (c : Config) : Nat := 2 ^ c.log2N

/-- 00_scope R6: `T` is odd and at least 3. -/
def Config.tapCountValid (c : Config) : Bool := c.tapCount % 2 == 1 && decide (3 ≤ c.tapCount)

/-- 41_filter R130: symmetry, the half-band zeros (counted from the centre), finite taps, a centre that is not 0.
The comparisons are of values, so a zero tap may have either sign. Log 16. -/
def Config.tapsValid (c : Config) : Bool :=
  (List.range c.tapCount).all (fun k => fpEq (c.tap k) (c.tap (c.tapCount - 1 - k)))
    && (List.range c.tapCount).all (fun k => k == c.centre || (k + c.centre) % 2 == 1 || fpIsZero (c.tap k))
    && (List.range c.tapCount).all (fun k => fpIsFinite (c.tap k))
    && !fpIsZero (c.tap c.centre)

/-- 00_scope R8: `3 ≤ LOG2N ≤ 23`. -/
def Config.log2NValid (c : Config) : Bool := decide (3 ≤ c.log2N ∧ c.log2N ≤ 23)

/-- 00_scope R9: `0 < RELEASE ≤ ATTACK ≤ 1`; `0x3F800000` is 1.0. -/
def Config.smoothingValid (c : Config) : Bool :=
  fpGt c.release F32.zero && !fpIsNaN c.attack && !fpGt c.release c.attack && !fpGt c.attack 0x3F800000#32

/-- 00_scope R10: `LEVEL_INIT` is finite and positive. -/
def Config.levelInitValid (c : Config) : Bool := fpIsFinite c.levelInit && fpGt c.levelInit F32.zero

/-- 00_scope R11: `MIN_IN` is even and at least 2. -/
def Config.minInValid (c : Config) : Bool := c.minIn % 2 == 0 && decide (2 ≤ c.minIn)

/-- 00_scope R12: `READ_TIMEOUT` is positive. -/
def Config.readTimeoutValid (c : Config) : Bool := decide (0 < c.readTimeout)

/-- Every constraint of the parameter summary of 00_scope section 3. -/
def Config.valid (c : Config) : Bool :=
  c.tapCountValid && c.tapsValid && c.log2NValid && c.smoothingValid && c.levelInitValid && c.minInValid
    && c.readTimeoutValid

/-- EX7, the example configuration of 95_test_vectors: "a test configuration, not the hardware's". Its NaN results are
the quiet NaN `0x7FC00000`, so that a test can evaluate them; READ_TIMEOUT, which EX7 does not give, is 1. -/
def Config.ex7 : Config :=
  { taps := [0xBD000000#32, 0x00000000#32, 0x3E900000#32, 0x3F000000#32, 0x3E900000#32, 0x00000000#32, 0xBD000000#32]
    log2N := 4
    attack := 0x3F000000#32
    release := 0x3E000000#32
    levelInit := 0x3A800000#32
    minIn := 2
    readTimeout := 1
    arith := .reference
    nan := .fixed false 0x400000#23 }

/-- The hardware's configuration: any values that meet the spec's constraints, and nothing tells which. The other
branch is there only because an opaque constant cannot carry the constraints itself. Log 2. -/
def Config.hardware : Config := if Config.hardwareRaw.valid then Config.hardwareRaw else Config.ex7

end Sys2Proof
end

