-- ==== Sys2Proof/Machine/State.lean ====
section
/-! DEFINITION. The state of the block (10_state R20), the outputs and inputs of its ports, the reasons a step can
stop, and the state at power-on. -/

namespace Sys2Proof.Machine

/-- The status of a result record (60_exceptions R201). -/
inductive Status where
  | ok
  | dropped
  | timeout
  | badLen
  | illegal
  deriving DecidableEq, Repr, Inhabited

/-- The result data of a command (30_encoding R76). -/
inductive ResultData where
  /-- the command returns no data -/
  | none
  /-- binary32 words, `I` before `Q` of each sample (FIR.PROCESS) -/
  | words (ws : List Word)
  /-- bytes in FIFO order (FIFO.READ) -/
  | bytes (bs : List Byte)
  deriving DecidableEq, Repr, Inhabited

/-- A result record `result(status, value)` with its result data (30_encoding R76). -/
structure Result where
  status : Status
  value : Word
  data : ResultData
  deriving DecidableEq, Repr, Inhabited

/-- An output event (60_exceptions R208). -/
inductive Event where
  /-- EV_DROP: 32-bit byte count, 32-bit complex-sample count -/
  | drop (bytes samples : BitVec 32)
  /-- EV_LEVEL -/
  | level (v : F32)
  /-- EV_OCC: the new `count` -/
  | occ (count : Nat)
  deriving DecidableEq, Repr, Inhabited

/-- The members of the sticky fault set (10_state R33). -/
inductive ModelFault where
  /-- a FIFO.RESET while a read waits (70_reset R235) -/
  | resetRace
  /-- a negative or NaN power given to LT.UPDATE (42_level_tracker R165) -/
  | ltContract
  deriving DecidableEq, Repr, Inhabited

/-- The sticky fault set of 10_state R33: which members it has. -/
structure FaultSet where
  resetRace : Bool
  ltContract : Bool
  deriving DecidableEq, Repr, Inhabited

/-- The FIFO storage `Buf` (10_state R27): a list of (offset, byte) in rising order of offset. An offset that is not
listed is `Unwritten`, so there is no value an entry could repeat. Log 12. -/
abbrev Memory := List Host.Cell

/-- The state. The first nine fields are 10_state R20's record. -/
structure State where
  /-- the last `T` input complex samples, newest first (R23) -/
  hist : List Sample
  /-- the AGC level (R26) -/
  level : F32
  /-- the FIFO storage `Buf` (R27) -/
  buf : Memory
  /-- the next write offset (R28) -/
  head : Nat
  /-- the next read offset (R29) -/
  tail : Nat
  /-- the number of valid bytes (R30) -/
  count : Nat
  /-- the consumer port's pending read (R32) -/
  rdwait : Option (BitVec 24)
  /-- the sticky model faults (R33) -/
  faults : FaultSet
  /-- the history of output events, oldest first (R34) -/
  events : List Event
  /-- the result records of each port, oldest first (30_encoding R76, 70_reset R244). Log 9. -/
  results : PerPort (List Result)
  /-- the configuration, which no step writes (00_scope section 3). Log 1. -/
  cfg : Config
  /-- the model's own: the commands each port's agent has yet to issue, the next first (70_reset R244). Log 6. -/
  inbox : PerPort (List Command)
  /-- the model's own: whose turns come next (00_scope R5: any order). Log 6. -/
  sched : List Port
  /-- the model's own: the port whose step is being taken, `port` of 30_encoding R79. Log 10. -/
  active : Port
  deriving DecidableEq, Repr

/-- Why the machine stops with a fault. -/
inductive Fault where
  /-- FIFO.READ's completion found a cell of its range `Unwritten` (93_implementation_defined item 11). Raised by
  `completeRead`, in no state that meets `State.Inv` (20_memory R66). Safe: the machine stops. -/
  | unwrittenRead (offset : Nat)
  deriving DecidableEq, Repr

/-- Why a step is refused. -/
inductive Refusal where
  /-- the instruction has no meaning yet. Raised by no arm of `exec`: every instruction has its meaning. Safe. -/
  | notModelled (mnemonic : String)
  /-- the payload of the command that the port would take does not have the length its word fixes: "the model's
  transcriber refuses it by name and it has no step" (30_encoding R75). Raised by `runCommand`. Safe. -/
  | payloadMismatch (port : Port) (word : Word)
  deriving DecidableEq, Repr

/-- The power-on state of a block with configuration `c` (70_reset R230, 10_state R38): nothing listed in storage,
and no command or turn given to it yet. -/
def State.powerOn (c : Config) : State :=
  { hist := List.replicate c.tapCount Sample.zero
    level := c.levelInit
    buf := []
    head := 0
    tail := 0
    count := 0
    rdwait := none
    faults := ⟨false, false⟩
    events := []
    results := ⟨[], [], []⟩
    cfg := c
    inbox := ⟨[], [], []⟩
    sched := []
    active := .producer }

/-- The machine right after reset: the power-on state under the hardware's configuration (70_reset R230). -/
def State.reset : State := State.powerOn Config.hardware

end Sys2Proof.Machine
end

