-- ==== Sys2Proof/Machine/Operands.lean ====
section
/-! DEFINITION. Operand forms: LEN and payloads read as the spec says, and values serialized to bytes and words. -/

namespace Sys2Proof.Machine

/-- Payload words as samples: word `2i` is `I` and word `2i+1` is `Q` of sample `i` (30_encoding R82). A last word
without its partner, which no well-formed command has, is left out. -/
def samplesOf : List F32 → List Sample
  | i :: q :: rest => ⟨i, q⟩ :: samplesOf rest
  | _ => []

/-- Output samples as result words, `I` before `Q` (41_filter R138). -/
def wordsOf (ys : List Sample) : List Word := ys.flatMap fun y => [y.i, y.q]

/-- `le32` of 20_memory R54: the low byte first. -/
def le32 (w : Word) : List Byte :=
  [w.extractLsb' 0 8, w.extractLsb' 8 8, w.extractLsb' 16 8, w.extractLsb' 24 8]

/-- `Ser` of 20_memory R54: 8 bytes a sample, `I` then `Q`. -/
def ser (ys : List Sample) : List Byte := ys.flatMap fun y => le32 y.i ++ le32 y.q

/-- `zext_32` of an exact integer of the state (00_scope R14). -/
def zext32 (n : Nat) : Word := BitVec.ofNat 32 n

end Sys2Proof.Machine
end

