-- ==== Sys2Proof/Machine/Flags.lean ====
section
/-! DEFINITION. The block has no condition flags (10_state R35); this file holds what stands in their place: the status
codes, the derived conditions, and the checks in the order of 60_exceptions R206. -/

namespace Sys2Proof.Machine

/-- The 4-bit code of a status (60_exceptions R201). -/
def Status.code : Status → BitVec 4
  | .ok => 0
  | .dropped => 1
  | .timeout => 2
  | .badLen => 3
  | .illegal => 4

/-- `N`, the FIFO capacity of this block. -/
def State.capacity (s : State) : Nat := s.cfg.capacity

/-- `free = N - count` (40_fifo R100). -/
def State.free (s : State) : Nat := s.capacity - s.count

/-- FIFO empty (10_state R35). -/
def State.fifoEmpty (s : State) : Bool := s.count == 0

/-- FIFO full (10_state R35). -/
def State.fifoFull (s : State) : Bool := s.count == s.capacity

/-- BAD_LEN: the block length is odd or below `MIN_IN` (41_filter R139, 60_exceptions R204). -/
def badLength (c : Config) (len : BitVec 24) : Bool := len.toNat % 2 != 0 || decide (len.toNat < c.minIn)

/-- DROPPED: `n` bytes exceed the free space (40_fifo R101, 43_pipeline R181, 60_exceptions R202). -/
def State.noRoom (s : State) (n : Nat) : Bool := decide (s.free < n)

/-- LT_CONTRACT: the power is negative or NaN (42_level_tracker R165). `-0.0` is not negative. -/
def outOfContract (p : F32) : Bool := fpGt F32.zero p || fpIsNaN p

end Sys2Proof.Machine
end

