-- ==== Sys2Proof/Machine/Ops.lean ====
section
/-! DEFINITION. The named operations that the meanings share: FIFO storage, events, faults, result records, the port
check, and the steps of the FIFO. Ending a command with a failing status stands where another machine takes an
exception: the block has no trap entry and no return (60_exceptions R200, R211). -/

namespace Sys2Proof.Machine

/-- The canonical form of memory: offsets strictly rising. An unlisted offset reads as nothing, so no entry can
repeat what it would read as. -/
def Memory.wf (m : Memory) : Bool :=
  match m with
  | [] => true
  | (a, _) :: rest => rest.all (fun cell => decide (a < cell.1)) && Memory.wf rest

/-- `Buf[o]`: the byte at an offset, none where it is `Unwritten` (10_state R27). -/
def Memory.read (m : Memory) (o : Nat) : Option Byte :=
  match m with
  | [] => none
  | (a, b) :: rest => if a = o then some b else Memory.read rest o

/-- `Buf[o] <- b` (00_scope R15). -/
def Memory.write (m : Memory) (o : Nat) (b : Byte) : Memory :=
  match m with
  | [] => [(o, b)]
  | (a, x) :: rest =>
    if o < a then (o, b) :: (a, x) :: rest
    else if o = a then (o, b) :: rest
    else (a, x) :: Memory.write rest o b

/-- `MemWrite(o, n, bs)` of 20_memory R51, `n` being the length of `bs`: byte `j` goes to offset `(o + j) mod N`. -/
def memWrite (N o : Nat) (bs : List Byte) (m : Memory) : Memory :=
  match bs with
  | [] => m
  | b :: rest => memWrite N (o + 1) rest (m.write (o % N) b)

/-- `MemRead(o, n)` of 20_memory R51: the bytes at offsets `(o + j) mod N`, or the first offset of them that is
`Unwritten`. -/
def memRead (N o : Nat) (n : Nat) (m : Memory) : Except Nat (List Byte) :=
  match n with
  | 0 => .ok []
  | n + 1 =>
    match m.read (o % N) with
    | none => .error (o % N)
    | some b =>
      match memRead N (o + 1) n m with
      | .error a => .error a
      | .ok bs => .ok (b :: bs)

/-- Add a member to the sticky fault set (10_state R33). -/
def FaultSet.insert (fs : FaultSet) : ModelFault → FaultSet
  | .resetRace => { fs with resetRace := true }
  | .ltContract => { fs with ltContract := true }

/-- Is the member in the fault set? -/
def FaultSet.has (fs : FaultSet) : ModelFault → Bool
  | .resetRace => fs.resetRace
  | .ltContract => fs.ltContract

/-- The outcome of a step of this machine. -/
abbrev Outcome := Host.Outcome State Fault Refusal

/-- `fault F` (00_scope R15). -/
def State.addFault (s : State) (f : ModelFault) : State := { s with faults := s.faults.insert f }

/-- `emit E` (00_scope R15, 60_exceptions R208). -/
def State.emit (s : State) (e : Event) : State := { s with events := s.events ++ [e] }

/-- End the active port's command with a result record (30_encoding R76). -/
def State.finish (s : State) (r : Result) : State :=
  { s with results := s.results.set s.active (s.results.get s.active ++ [r]) }

/-- `result(OK, value)` with no data. -/
def State.finishOk (s : State) (value : Word) : State := s.finish ⟨.ok, value, .none⟩

/-- `result(ILLEGAL, 0)`: no state changes, no event, no data (30_encoding R79, 60_exceptions R205). -/
def State.completeIllegal (s : State) : State := s.finish ⟨.illegal, 0, .none⟩

/-- `result(BAD_LEN, 0)`: no state changes, no event, no data (41_filter R139, 60_exceptions R204). -/
def State.completeBadLen (s : State) : State := s.finish ⟨.badLen, 0, .none⟩

/-- The port check of 30_encoding R79: on a port that the row does not list, ILLEGAL. -/
def onPorts (ports : List Port) (s : State) (body : Outcome) : Outcome :=
  if s.active ∈ ports then body else .next s.completeIllegal

/-- `level <- v; emit EV_LEVEL(level)` (42_level_tracker R167). -/
def State.setLevel (s : State) (v : F32) : State := ({ s with level := v }).emit (.level v)

/-- The accepted write of `n` bytes (40_fifo R101, 43_pipeline R180): storage, `head`, `count`, EV_OCC. -/
def State.push (s : State) (n : Nat) (bs : List Byte) : State :=
  ({ s with
      buf := memWrite s.capacity s.head bs s.buf
      head := (s.head + n) % s.capacity
      count := s.count + n }).emit (.occ (s.count + n))

/-- The dropped write (60_exceptions R202): nothing is written, EV_DROP is emitted. -/
def State.dropped (s : State) (bytes samples : Nat) : State := s.emit (.drop (zext32 bytes) (zext32 samples))

/-- The read of `n` bytes (40_fifo R103), less its result record: `tail`, `count`, `rdwait`, EV_OCC. -/
def State.pop (s : State) (n : Nat) : State :=
  ({ s with
      tail := (s.tail + n) % s.capacity
      count := s.count - n
      rdwait := none }).emit (.occ (s.count - n))

/-- `complete_read(L)` of 40_fifo R103. A cell of the range that is `Unwritten` is a fault; no state that meets
`State.Inv` has one (20_memory R66). -/
def completeRead (len : BitVec 24) (s : State) : Outcome :=
  match memRead s.capacity s.tail len.toNat s.buf with
  | .error o => .fault (.unwrittenRead o)
  | .ok bs => .next ((s.pop len.toNat).finish ⟨.ok, len.setWidth 32, .bytes bs⟩)

/-- `timeout_read(L)` of 40_fifo R104. -/
def timeoutRead (s : State) : State := ({ s with rdwait := none }).finish ⟨.timeout, 0, .none⟩

/-- The wait-end action of port C (40_fifo R104): completion where the bytes are there, else the timeout. -/
def endWait (len : BitVec 24) (s : State) : Outcome :=
  if len.toNat ≤ s.count then completeRead len s else .next (timeoutRead s)

end Sys2Proof.Machine
end

