-- ==== Sys2Proof/Machine/Fifo.lean ====
section
/-! DEFINITION. The FIFO unit's commands (40_fifo R101 to R107). -/

namespace Sys2Proof.Machine

/-- FIFO.WRITE on port P (40_fifo R101): write all the bytes or drop them all. -/
def fifoWrite (len : BitVec 24) (bs : List Byte) (s : State) : State :=
  if len = 0 then s.finishOk 0
  else if s.noRoom len.toNat then
    (s.dropped len.toNat (len.toNat / 8)).finish ⟨.dropped, 0, .none⟩
  else (s.push len.toNat bs).finishOk (len.setWidth 32)

/-- FIFO.WRITE (40_fifo R101). -/
def execFifoWrite (len : BitVec 24) (bs : List Byte) (s : State) : Outcome :=
  onPorts Opcode.fifoWrite.ports s (.next (fifoWrite len bs s))

/-- FIFO.READ (40_fifo R102), the issue step: take the bytes now, or wait for them. -/
def execFifoRead (len : BitVec 24) (s : State) : Outcome :=
  onPorts Opcode.fifoRead.ports s
    (if len = 0 then .next (s.finish ⟨.ok, 0, .bytes []⟩)
     else if len.toNat ≤ s.count then completeRead len s
     else .next { s with rdwait := some len })

/-- FIFO.RESET on port K (40_fifo R105): the storage keeps its bytes, and a waiting read keeps waiting. -/
def fifoReset (s : State) : State :=
  let raced := if s.rdwait = none then s else s.addFault .resetRace
  let emptied := { raced with head := 0, tail := 0, count := 0 }
  (if s.count = 0 then emptied else emptied.emit (.occ 0)).finishOk 0

/-- FIFO.RESET (40_fifo R105). -/
def execFifoReset (s : State) : Outcome := onPorts Opcode.fifoReset.ports s (.next (fifoReset s))

/-- FIFO.AVAIL_RD (40_fifo R106). -/
def execFifoAvailRd (s : State) : Outcome :=
  onPorts Opcode.fifoAvailRd.ports s (.next (s.finishOk (zext32 s.count)))

/-- FIFO.AVAIL_WR (40_fifo R107). -/
def execFifoAvailWr (s : State) : Outcome :=
  onPorts Opcode.fifoAvailWr.ports s (.next (s.finishOk (zext32 s.free)))

end Sys2Proof.Machine
end

