-- ==== Sys2Proof/Machine/Fir.lean ====
section
/-! DEFINITION. The FIR unit: its numerics (41_filter R131 to R136) and its commands (R137, R138). -/

namespace Sys2Proof.Machine

/-- `shift_in(x)` of 41_filter R138: the newest sample enters at `hist[0]` and the oldest leaves. -/
def shiftIn (x : Sample) (hist : List Sample) : List Sample := (x :: hist).take hist.length

/-- `hist[k]` (10_state R23). -/
def histAt (hist : List Sample) (k : Nat) : Sample := hist.getD k Sample.zero

/-- What a lane's sum is made of (41_filter R133): the active taps in ascending order (R131), each with the lane's value
at its position of the window. -/
def lanePairs (c : Config) (hist : List Sample) (l : Lane) : List (F32 × F32) :=
  c.activeTaps.map fun k => (c.tap k, (histAt hist k).lane l)

/-- One lane of the reference sum (41_filter R134): from `+0.0`, over the active taps in ascending order. -/
def macLane (r : NanRule) (pairs : List (F32 × F32)) : F32 :=
  pairs.foldl (fun acc hx => fpAdd r acc (fpMul r hx.1 hx.2)) F32.zero

/-- Is every product, and every partial sum from `acc` on, exact (41_filter R135)? -/
def exactFrom (r : NanRule) (acc : F32) : List (F32 × F32) → Bool
  | [] => true
  | (h, x) :: rest =>
    fpMulExact r h x && fpAddExact r acc (fpMul r h x) && exactFrom r (fpAdd r acc (fpMul r h x)) rest

/-- One lane of the output of an implementation that is not the reference. Where every product and partial sum is exact,
"every such implementation returns the exact sum" (41_filter R135). A NaN at an active tap gives a NaN (95_test_vectors
FIR-10, which "every conforming `ARITH`" meets), its encoding free. Else the value is free. Log 3. -/
def implementationLane (c : Config) (l : Lane) (pairs : List (F32 × F32)) : F32 :=
  let free := Config.implLane l c.taps (pairs.map Prod.snd)
  if exactFrom c.nan F32.zero pairs then macLane c.nan pairs
  else if pairs.any fun hx => fpIsNaN hx.2 then fpMakeNaN (fpSign free) (free.extractLsb' 0 23)
  else free

/-- One lane of `ARITH.fir` (41_filter R134, R135). -/
def firLane (c : Config) (l : Lane) (pairs : List (F32 × F32)) : F32 :=
  match c.arith with
  | .reference => macLane c.nan pairs
  | .implementation => implementationLane c l pairs

/-- `ARITH.fir(H, hist)`, lane by lane (41_filter R133, R135): under the reference, `fir_out(hist)` of R134. -/
def firOut (c : Config) (hist : List Sample) : Sample :=
  { i := firLane c .i (lanePairs c hist .i), q := firLane c .q (lanePairs c hist .q) }

/-- `pow(y)` of 41_filter R136. -/
def pow (r : NanRule) (y : Sample) : F32 := fpAdd r (fpMul r y.i y.i) (fpMul r y.q y.q)

/-- One step of the peak (41_filter R136): a NaN power never replaces it. -/
def raisePeak (peak p : F32) : F32 := if fpGt p peak then p else peak

/-- The peak power of a block's outputs, from `+0.0` (41_filter R136). -/
def peakPower (r : NanRule) (ys : List Sample) : F32 :=
  ys.foldl (fun peak y => raisePeak peak (pow r y)) F32.zero

/-- The history after a block's samples have been taken (41_filter R138). -/
def firHistory (hist : List Sample) (xs : List Sample) : List Sample :=
  xs.foldl (fun h x => shiftIn x h) hist

/-- The outputs of a block (41_filter R138): one after every two input samples, from the window that ends at the
second of them (R133). -/
def firOutputs (c : Config) (hist : List Sample) : List Sample → List Sample
  | x :: x' :: rest =>
    let hist' := shiftIn x' (shiftIn x hist)
    firOut c hist' :: firOutputs c hist' rest
  | _ => []

/-- FIR.RESET on port P (41_filter R137). -/
def firReset (s : State) : State :=
  ({ s with hist := List.replicate s.cfg.tapCount Sample.zero }).finishOk 0

/-- FIR.RESET (41_filter R137). -/
def execFirReset (s : State) : Outcome := onPorts Opcode.firReset.ports s (.next (firReset s))

/-- FIR.PROCESS on port P (41_filter R138). -/
def firProcess (len : BitVec 24) (payload : List F32) (s : State) : State :=
  if badLength s.cfg len then s.completeBadLen
  else
    let xs := samplesOf payload
    let ys := firOutputs s.cfg s.hist xs
    ({ s with hist := firHistory s.hist xs }).finish ⟨.ok, peakPower s.cfg.nan ys, .words (wordsOf ys)⟩

/-- FIR.PROCESS (41_filter R138). -/
def execFirProcess (len : BitVec 24) (payload : List F32) (s : State) : Outcome :=
  onPorts Opcode.firProcess.ports s (.next (firProcess len payload s))

end Sys2Proof.Machine
end

