-- ==== Sys2Proof/Machine/LevelTracker.lean ====
section
/-! DEFINITION. The LT unit: the update law (42_level_tracker R161) and its commands (R162 to R164). -/

namespace Sys2Proof.Machine

/-- The coefficient of the update law: ATTACK where `p > l`, RELEASE otherwise, "including p = l and any NaN operand"
(42_level_tracker R161). -/
def ltCoefficient (c : Config) (l p : F32) : F32 := if fpGt p l then c.attack else c.release

/-- `lt_step(l, p)` of 42_level_tracker R161: the reference rounds each operation, read left to right. -/
def ltStep (c : Config) (l p : F32) : F32 :=
  match c.arith with
  | .reference => fpAdd c.nan l (fpMul c.nan (ltCoefficient c l p) (fpSub c.nan p l))
  | .implementation => Config.implLt (ltCoefficient c l p) l p

/-- LT.RESET on port P (42_level_tracker R162). -/
def ltReset (s : State) : State := (s.setLevel s.cfg.levelInit).finishOk s.cfg.levelInit

/-- LT.RESET (42_level_tracker R162). -/
def execLtReset (s : State) : Outcome := onPorts Opcode.ltReset.ports s (.next (ltReset s))

/-- LT.UPDATE on port P (42_level_tracker R163): out of contract, the fault is recorded and the block computes the
same (R165). -/
def ltUpdate (p : F32) (s : State) : State :=
  let checked := if outOfContract p then s.addFault .ltContract else s
  (checked.setLevel (ltStep s.cfg s.level p)).finishOk (ltStep s.cfg s.level p)

/-- LT.UPDATE (42_level_tracker R163). -/
def execLtUpdate (p : F32) (s : State) : Outcome := onPorts Opcode.ltUpdate.ports s (.next (ltUpdate p s))

/-- LT.READ (42_level_tracker R164). -/
def execLtRead (s : State) : Outcome := onPorts Opcode.ltRead.ports s (.next (s.finishOk s.level))

end Sys2Proof.Machine
end

