-- ==== Sys2Proof/Machine/Pipe.lean ====
section
/-! DEFINITION. The PIPE composite command (43_pipeline R180 to R182). -/

namespace Sys2Proof.Machine

/-- The accepted PIPE.PROCESS (43_pipeline R180), in the order of R182: the filter, the level, then the write or the
drop. `nb = 8 * (LEN/2)`. -/
def pipeAccepted (len : BitVec 24) (payload : List F32) (s : State) : State :=
  let xs := samplesOf payload
  let ys := firOutputs s.cfg s.hist xs
  let level := ltStep s.cfg s.level (peakPower s.cfg.nan ys)
  let tracked := ({ s with hist := firHistory s.hist xs }).setLevel level
  let nb := 8 * (len.toNat / 2)
  if s.noRoom nb then (tracked.dropped nb (len.toNat / 2)).finish ⟨.dropped, level, .none⟩
  else (tracked.push nb (ser ys)).finishOk level

/-- PIPE.PROCESS on port P (43_pipeline R180). -/
def pipeProcess (len : BitVec 24) (payload : List F32) (s : State) : State :=
  if badLength s.cfg len then s.completeBadLen else pipeAccepted len payload s

/-- PIPE.PROCESS (43_pipeline R180). -/
def execPipeProcess (len : BitVec 24) (payload : List F32) (s : State) : Outcome :=
  onPorts Opcode.pipeProcess.ports s (.next (pipeProcess len payload s))

end Sys2Proof.Machine
end

