-- ==== Sys2Proof/Machine/Dispatch.lean ====
section
/-! DEFINITION. The dispatch: one arm per command, each a direct call of its meaning. -/

namespace Sys2Proof.Machine

/-- The effect of a command on the active port. -/
def exec (i : Instr) (s : State) : Host.Outcome State Fault Refusal :=
  match i with
  | .firReset => Sys2Proof.Machine.execFirReset s
  | .firProcess len payload => Sys2Proof.Machine.execFirProcess len payload s
  | .ltReset => Sys2Proof.Machine.execLtReset s
  | .ltUpdate p => Sys2Proof.Machine.execLtUpdate p s
  | .ltRead => Sys2Proof.Machine.execLtRead s
  | .fifoReset => Sys2Proof.Machine.execFifoReset s
  | .fifoWrite len payload => Sys2Proof.Machine.execFifoWrite len payload s
  | .fifoRead len => Sys2Proof.Machine.execFifoRead len s
  | .fifoAvailRd => Sys2Proof.Machine.execFifoAvailRd s
  | .fifoAvailWr => Sys2Proof.Machine.execFifoAvailWr s
  | .pipeProcess len payload => Sys2Proof.Machine.execPipeProcess len payload s

end Sys2Proof.Machine
end

