-- ==== Sys2Proof/Machine/Turn.lean ====
section
/-! DEFINITION. A port's turn: taking the next command of its stream and running it, or ending the consumer's wait. The
block fetches nothing (10_state R22): what stands here in place of a fetch is the head of the port's command stream. -/

namespace Sys2Proof.Machine

/-- Run a command that the active port has taken (30_encoding R79): a command with the wrong payload has no step
(R75), a word that is no command ends ILLEGAL, and every other runs. -/
def runCommand (c : Command) (s : State) : Outcome :=
  match decode c with
  | .ok i => exec i s
  | .error .payloadMismatch => .refused (.payloadMismatch s.active c.word)
  | .error .reservedOp => .next s.completeIllegal
  | .error .nonZeroArg => .next s.completeIllegal

/-- The end of a run (70_reset R244): "every port has taken every command of its list and `rdwait = None`". -/
def State.runEnded (s : State) : Bool :=
  s.inbox.producer.isEmpty && s.inbox.consumer.isEmpty && s.inbox.control.isEmpty && s.rdwait.isNone

/-- The observation of a run (70_reset R244), once it has ended: the final state, in which stand the result records of
each port in order with their data (`results`) and `events`. -/
def State.observation (s : State) : Option State := if s.runEnded then some s else none

/-- The active port takes the next command of its stream; with none to take, its agent does nothing (70_reset R243).
Log 8. -/
def takeCommand (s : State) : Outcome :=
  match s.inbox.get s.active with
  | [] => .next s
  | c :: rest => runCommand c { s with inbox := s.inbox.set s.active rest }

/-- A turn of port `p`. The consumer port takes no new command while a read waits (40_fifo R102): its turn is then
the wait-end action (R104). Log 7. -/
def takeTurn (p : Port) (s : State) : Outcome :=
  match p, s.rdwait with
  | .consumer, some len => endWait len { s with active := .consumer }
  | _, _ => takeCommand { s with active := p }

/-- What happens when no turn is left: a wait still ends (weak fairness, 40_fifo R104), and else nothing more happens.
Where commands are left then, their agents have stopped for ever, as they may (70_reset R243), and the run has not
ended (`State.runEnded`). Log 7, log 8. -/
def quiesce (s : State) : Outcome :=
  match s.rdwait with
  | some len => endWait len { s with active := .consumer }
  | none => .next s

/-- The port that may issue a command word, the first of its row (30_encoding R77); the producer for a word that is
ILLEGAL on every port. -/
def portOf (w : Word) : Port :=
  match opcodeOf (opField w) with
  | none => .producer
  | some o => o.ports.headD .producer

/-- Give port `p` a command to issue before those it has, and the next turn. A read that waits on port C would keep
it from taking the command, so none waits. Log 11. -/
def State.issueNext (s : State) (p : Port) (c : Command) : State :=
  { s with
    inbox := s.inbox.set p (c :: s.inbox.get p)
    sched := p :: s.sched
    rdwait := if p = .consumer then none else s.rdwait }

end Sys2Proof.Machine
end

