-- ==== Sys2Proof/Machine/Step.lean ====
section
/-! DEFINITION. The step of the machine. -/

namespace Sys2Proof.Machine

/-- One step: the turn of the port that the interleaving names next (00_scope R5). -/
def step (s : State) : Host.Outcome State Fault Refusal :=
  match s.sched with
  | [] => quiesce s
  | p :: rest => takeTurn p { s with sched := rest }

/-- `s` with the command whose bits are `w` as the next that its port issues, and that port's turn next. -/
def State.withFetchWord (s : State) (nbits w : Nat) : State :=
  s.issueNext (portOf (commandOfBits nbits w).word) (commandOfBits nbits w)

end Sys2Proof.Machine
end

