-- ==== Sys2Proof/Safety.lean ====
section
/-! DEFINITION. What claims are said in: the invariant of the machine, the FIFO as a byte queue, and the premises that
the spec asks a claim to carry. -/

namespace Sys2Proof.Machine

/-- What every reachable state meets: a configuration within the spec's constraints, a history of `T` samples
(10_state R23), a canonical storage within `0..N-1` (R27), the ranges of `head`, `tail` and `count` (R28, R29, R30), the
relation of R31, valid cells that are all written (20_memory R66), and no wait for zero bytes (40_fifo R102). -/
structure State.Inv (s : State) : Prop where
  cfg_valid : s.cfg.valid = true
  hist_length : s.hist.length = s.cfg.tapCount
  buf_wf : Memory.wf s.buf = true
  buf_bound : ∀ cell ∈ s.buf, cell.1 < s.capacity
  head_lt : s.head < s.capacity
  tail_lt : s.tail < s.capacity
  count_le : s.count ≤ s.capacity
  head_eq : s.head = (s.tail + s.count) % s.capacity
  valid_written : ∀ j < s.count, (Memory.read s.buf ((s.tail + j) % s.capacity)).isSome = true
  wait_positive : s.rdwait ≠ some 0

/-- The valid bytes in FIFO order: the cells `(tail + j) mod N` for `0 ≤ j < count` (10_state R31). -/
def State.validBytes (s : State) : List Byte :=
  (List.range s.count).map fun j => (Memory.read s.buf ((s.tail + j) % s.capacity)).getD 0

/-- The result records after the active port's command has ended with one more. -/
def State.answered (s : State) (r : Result) : PerPort (List Result) :=
  s.results.set s.active (s.results.get s.active ++ [r])

/-- No model fault is recorded: the premise of every claim about a run within the source's contract (10_state R33). -/
def State.noFault (s : State) : Bool := !s.faults.has .resetRace && !s.faults.has .ltContract

/-- The spec's premise `QuiescentReset` (70_reset R235) at a state: a FIFO.RESET on the control port's turn finds no
read waiting. A command in mid-transfer cannot be in an atomic model. -/
def State.quiescentReset (s : State) : Bool :=
  match s.sched, s.inbox.control with
  | .control :: _, c :: _ => c.word != 0x20000000#32 || s.rdwait == none
  | _, _ => true

/-- Every command still to come has the payload that its word fixes: the transcriber has refused the others
(30_encoding R75). -/
def State.inboxFits (s : State) : Bool :=
  s.inbox.producer.all Command.payloadFits && s.inbox.consumer.all Command.payloadFits
    && s.inbox.control.all Command.payloadFits

/-- Is the event an EV_OCC? -/
def Event.isOcc : Event → Bool
  | .drop _ _ => false
  | .level _ => false
  | .occ _ => true

/-- The FIR window that ends at input sample `m` of a block `xs`, with the history `hist` before the block: the newest
`T` samples, newest first (41_filter R133, 10_state R23). -/
def windowAt (c : Config) (hist xs : List Sample) (m : Nat) : List Sample :=
  ((xs.take (m + 1)).reverse ++ hist).take c.tapCount

/-- A binary32 value that is finite and not negative, as the source's range "[0,∞)" of a level (10_state R26). -/
def fpInRange (w : F32) : Bool := fpIsFinite w && decide (0 ≤ fpVal w)

end Sys2Proof.Machine
end

