-- ==== Sys2Proof/Certificates/Slice0/Obligations.lean ====
section
/-! DEFINITION. The statements for the provers. Where a statement rests on a choice of the model, its docstring names
the log entry. -/

open Sys2Proof Sys2Proof.Machine

/-! ### Power-on and the configuration -/

/-- 70_reset R230: the power-on state, and that the three reset commands lead a fresh block back to it but for the
events they emit. The model's choices: the result records and the active port, logs 9 and 10; the hardware's
configuration, log 2. -/
def Obligations.PowerOnStateIsResetState : Prop :=
  ∀ c : Config, ∃ s : State, s = State.powerOn c ∧
    s.hist = List.replicate c.tapCount ⟨0x00000000#32, 0x00000000#32⟩ ∧ s.level = c.levelInit ∧
    s.head = 0 ∧ s.tail = 0 ∧ s.count = 0 ∧ (∀ o, Memory.read s.buf o = none) ∧ s.rdwait = none ∧
    (∀ f, s.faults.has f = false) ∧ s.events = [] ∧
    State.reset = State.powerOn Config.hardware ∧
    ∃ s₁ s₂ s₃ : State,
      exec .fifoReset { s with active := .control } = .next s₁ ∧
      exec .firReset { s₁ with active := .producer } = .next s₂ ∧
      exec .ltReset s₂ = .next s₃ ∧
      s = { s₃ with events := [], results := s.results, active := s.active }

/-- 00_scope R6 to R12, 41_filter R130: a configuration is valid exactly where it meets the spec's constraints, and the hardware's
is (its values are opaque, the model's choice, log 2). -/
def Obligations.HardwareConfigurationMeetsConstraints : Prop :=
  Config.hardware.valid = true ∧
  ∀ c : Config, c.valid = true ↔
    c.tapCount % 2 = 1 ∧ 3 ≤ c.tapCount ∧
    (∀ k < c.tapCount, fpIsFinite (c.tap k) = true ∧ fpVal (c.tap k) = fpVal (c.tap (c.tapCount - 1 - k))) ∧
    (∀ k < c.tapCount, k ≠ c.centre → k % 2 = c.centre % 2 → fpVal (c.tap k) = 0) ∧
    fpVal (c.tap c.centre) ≠ 0 ∧
    3 ≤ c.log2N ∧ c.log2N ≤ 23 ∧
    fpIsFinite c.attack = true ∧ fpIsFinite c.release = true ∧
    0 < fpVal c.release ∧ fpVal c.release ≤ fpVal c.attack ∧ fpVal c.attack ≤ 2 ^ 149 ∧
    fpIsFinite c.levelInit = true ∧ 0 < fpVal c.levelInit ∧
    c.minIn % 2 = 0 ∧ 2 ≤ c.minIn ∧ 0 < c.readTimeout

/-- The invariant holds at reset, and at power-on under every valid configuration. -/
def Obligations.ResetMeetsInvariant : Prop :=
  State.Inv State.reset ∧ ∀ c : Config, c.valid = true → State.Inv (State.powerOn c)

/-- 10_state R31, 40_fifo R108: every step keeps the invariant, from every state that meets it. -/
def Obligations.StepKeepsInvariant : Prop :=
  ∀ s t : State, s.Inv → step s = .next t →
    t.Inv ∧ t.head = (t.tail + t.count) % t.cfg.capacity ∧ 0 ≤ t.count ∧ t.count ≤ t.cfg.capacity

/-- 42_level_tracker R160: no command, and no other step, changes the configuration. -/
def Obligations.StepKeepsConfiguration : Prop :=
  ∀ s t : State, step s = .next t →
    t.cfg = s.cfg ∧ t.cfg.attack = s.cfg.attack ∧ t.cfg.release = s.cfg.release ∧
      t.cfg.levelInit = s.cfg.levelInit

/-! ### Encoding -/

/-- 30_encoding R71 to R77: decoding an encoded well-formed instruction gives it back. -/
def Obligations.DecodeOfEncodeIsInstruction : Prop :=
  ∀ i : Instr, i.wf = true → decode (encode i) = .ok i

/-- 30_encoding R79: each command has one meaning: what decodes is the encoding of what it decodes to, and is
well formed. -/
def Obligations.EncodeOfDecodeIsCommand : Prop :=
  ∀ (c : Command) (i : Instr), decode c = .ok i → encode i = c ∧ i.wf = true

/-- 30_encoding R84: the worked encodings, decoded for every payload of the length they fix; `0x01000001` ends
ILLEGAL. -/
def Obligations.WorkedEncodingsDecode : Prop :=
  (∀ p : List Word, p.length = 16 → decode ⟨0x02000008#32, p, []⟩ = .ok (.firProcess 8 p)) ∧
  (∀ b : List Byte, b.length = 10 → decode ⟨0x2100000A#32, [], b⟩ = .ok (.fifoWrite 10 b)) ∧
  decode ⟨0x2200000E#32, [], []⟩ = .ok (.fifoRead 14) ∧
  decode ⟨0x11000000#32, [0x3F800000#32], []⟩ = .ok (.ltUpdate 0x3F800000#32) ∧
  (∀ p : List Word, p.length = 8 → decode ⟨0x30000004#32, p, []⟩ = .ok (.pipeProcess 4 p)) ∧
  (∀ s : State, runCommand ⟨0x01000001#32, [], []⟩ s =
    .next { s with results := s.answered ⟨.illegal, 0, .none⟩ })

/-- 30_encoding R80: a reserved OP ends ILLEGAL on every port, whatever its ARG, and changes nothing: the step takes
the command from its port and leaves one result record. -/
def Obligations.ReservedOpcodesEndIllegal : Prop :=
  ∀ (s : State) (p : Port) (ps : List Port) (w : Word) (cs : List Command),
    s.sched = p :: ps → (p = .consumer → s.rdwait = none) → s.inbox.get p = ⟨w, [], []⟩ :: cs →
    opField w ∉ [0x01#8, 0x02#8, 0x10#8, 0x11#8, 0x12#8, 0x20#8, 0x21#8, 0x22#8, 0x23#8, 0x24#8, 0x30#8] →
    step s = .next { s with
      sched := ps, active := p, inbox := s.inbox.set p cs,
      results := s.results.set p (s.results.get p ++ [⟨.illegal, 0, .none⟩]) }

/-- 30_encoding R79: in formats N and V a non-zero ARG ends ILLEGAL on every port and changes nothing; the payload
is taken and discarded. -/
def Obligations.NonZeroArgumentEndsIllegal : Prop :=
  ∀ (s : State) (p : Port) (ps : List Port) (c : Command) (cs : List Command),
    s.sched = p :: ps → (p = .consumer → s.rdwait = none) → s.inbox.get p = c :: cs →
    (opField c.word ∈ [0x01#8, 0x10#8, 0x12#8, 0x20#8, 0x23#8, 0x24#8] ∧ c.words = [] ∧ c.bytes = [] ∨
      opField c.word = 0x11#8 ∧ c.words.length = 1 ∧ c.bytes = []) →
    argField c.word ≠ 0 →
    step s = .next { s with
      sched := ps, active := p, inbox := s.inbox.set p cs,
      results := s.results.set p (s.results.get p ++ [⟨.illegal, 0, .none⟩]) }

/-- 30_encoding R78: on a port that its row of R77 does not list, a command ends ILLEGAL and changes nothing. -/
def Obligations.WrongPortEndsIllegal : Prop :=
  ∀ (i : Instr) (s : State),
    (i.opcode ∈ [.firReset, .firProcess, .ltReset, .ltUpdate, .fifoWrite, .pipeProcess] ∧ s.active ≠ .producer ∨
      i.opcode = .fifoRead ∧ s.active ≠ .consumer ∨
      i.opcode = .fifoReset ∧ s.active ≠ .control) →
    exec i s = .next { s with results := s.answered ⟨.illegal, 0, .none⟩ }

/-- 30_encoding R75: what payload a word fixes, and that a command with another payload has no step. -/
def Obligations.PayloadMismatchHasNoStep : Prop :=
  (∀ w : Word, payloadLength w =
    if opField w = 0x02#8 ∨ opField w = 0x30#8 then (2 * (argField w).toNat, 0)
    else if opField w = 0x21#8 then (0, (argField w).toNat)
    else if opField w = 0x11#8 then (1, 0)
    else (0, 0)) ∧
  ∀ (s : State) (p : Port) (ps : List Port) (c : Command) (cs : List Command),
    s.sched = p :: ps → (p = .consumer → s.rdwait = none) → s.inbox.get p = c :: cs →
    (c.words.length, c.bytes.length) ≠ payloadLength c.word →
    step s = .refused (.payloadMismatch p c.word)

/-- 60_exceptions R206: ILLEGAL before BAD_LEN before DROPPED. A block of a bad length ends ILLEGAL on a wrong port;
on port P it ends BAD_LEN with no event, whether or not it would fit. -/
def Obligations.IllegalBeforeBadLengthBeforeDropped : Prop :=
  ∀ (s : State) (len : BitVec 24) (payload : List F32) (i : Instr),
    (i = .firProcess len payload ∨ i = .pipeProcess len payload) →
    (len.toNat % 2 = 1 ∨ len.toNat < s.cfg.minIn) →
    (s.active ≠ .producer → exec i s = .next { s with results := s.answered ⟨.illegal, 0, .none⟩ }) ∧
    (s.active = .producer → exec i s = .next { s with results := s.answered ⟨.badLen, 0, .none⟩ })

/-! ### The step -/

/-- A step runs the decoded instruction: where the port whose turn it is may take a command, and the command decodes
to `i`, the step is `exec i` on the state with the turn and the command taken and the port active. -/
def Obligations.StepRunsDecodedCommand : Prop :=
  ∀ (s : State) (p : Port) (ps : List Port) (c : Command) (cs : List Command) (i : Instr),
    s.sched = p :: ps → (p = .consumer → s.rdwait = none) → s.inbox.get p = c :: cs → decode c = .ok i →
    step s = exec i { s with sched := ps, active := p, inbox := s.inbox.set p cs }

/-- The model's choice, log 8: a turn of a port with no command to issue changes nothing but the turn, and with no
turn left and no read waiting nothing happens. -/
def Obligations.IdleStepChangesNothing : Prop :=
  (∀ (s : State) (p : Port) (ps : List Port),
    s.sched = p :: ps → (p = .consumer → s.rdwait = none) → s.inbox.get p = [] →
    step s = .next { s with sched := ps, active := p }) ∧
  ∀ s : State, s.sched = [] → s.rdwait = none → step s = .next s

/-- 20_memory R66: no step reads an `Unwritten` cell, from any state that meets the invariant; the step then answers
a next state unless the command's payload does not match its word (60_exceptions R200: no traps). -/
def Obligations.NoStepReadsUnwrittenCell : Prop :=
  ∀ s : State, s.Inv →
    (∀ o : Nat, step s ≠ .fault (.unwrittenRead o)) ∧
    ((∃ t, step s = .next t) ∨ ∃ p w, step s = .refused (.payloadMismatch p w)) ∧
    (s.inboxFits = true → ∃ t, step s = .next t)

/-- 10_state R33, R34: a model fault is never removed, and the history of events only grows; a step appends at most two
events, two only as EV_LEVEL then EV_OCC or EV_DROP (60_exceptions R209). Each port's results only grow too: that they
are kept is the model's choice, log 9 (30_encoding R76, 70_reset R244). -/
def Obligations.FaultsAndHistoriesOnlyGrow : Prop :=
  ∀ s t : State, step s = .next t →
    (∀ f, s.faults.has f = true → t.faults.has f = true) ∧
    (∀ p, ∃ rs, t.results.get p = s.results.get p ++ rs) ∧
    ∃ es, t.events = s.events ++ es ∧
      (es = [] ∨ (∃ e, es = [e]) ∨ (∃ l n, es = [.level l, .occ n]) ∨ ∃ l b n, es = [.level l, .drop b n])

/-- 10_state R37, the column "written by": which port's turn may change which piece of state. The step taken when no
turn is left, which ends a wait, counts as port C's (log 7). -/
def Obligations.EachFieldHasItsWriterPorts : Prop :=
  ∀ (s t : State) (p : Port), ((∃ ps, s.sched = p :: ps) ∨ s.sched = [] ∧ p = .consumer) → step s = .next t →
    (t.hist ≠ s.hist → p = .producer) ∧
    (t.level ≠ s.level → p = .producer) ∧
    (t.buf ≠ s.buf → p = .producer) ∧
    (t.head ≠ s.head → p = .producer ∨ p = .control) ∧
    (t.tail ≠ s.tail → p = .consumer ∨ p = .control) ∧
    (t.rdwait ≠ s.rdwait → p = .consumer) ∧
    (p = .producer → s.count ≤ t.count) ∧
    (p = .consumer → t.count ≤ s.count) ∧
    (p = .control → t.count = s.count ∨ t.count = 0)

/-- 40_fifo R112, 43_pipeline R184: a command on the producer port, and one on the control port, ends in one step with
one result record, whatever the FIFO holds. -/
def Obligations.ProducerNeverWaits : Prop :=
  ∀ (i : Instr) (s : State), s.active ≠ .consumer →
    ∃ (t : State) (r : Result), exec i s = .next t ∧ t.results = s.answered r ∧ r.status ≠ .timeout ∧
      t.rdwait = s.rdwait

/-- 60_exceptions R207, 42_level_tracker R165, 70_reset R235: which command records which model fault, and when. -/
def Obligations.ModelFaultsHaveOneCauseEach : Prop :=
  ∀ (i : Instr) (s t : State), exec i s = .next t →
    (t.faults.has .ltContract = true ↔
      s.faults.has .ltContract = true ∨
      ∃ p, i = .ltUpdate p ∧ s.active = .producer ∧
        (fpIsNaN p = true ∨ fpSign p = true ∧ fpIsZero p = false)) ∧
    (t.faults.has .resetRace = true ↔
      s.faults.has .resetRace = true ∨ i = .fifoReset ∧ s.active = .control ∧ s.rdwait ≠ none)

/-- 70_reset R235, 10_state R33: a step records no model fault where a FIFO.RESET finds no read waiting (the premise
`QuiescentReset`) and no LT.UPDATE is given a negative or NaN power. -/
def Obligations.StepWithinContractRecordsNoFault : Prop :=
  ∀ s t : State, step s = .next t → s.noFault = true → s.quiescentReset = true →
    (∀ (ps : List Port) (c : Command) (cs : List Command) (p : F32),
      s.sched = .producer :: ps → s.inbox.producer = c :: cs → decode c = .ok (.ltUpdate p) →
      fpIsNaN p = false ∧ (fpSign p = true → fpIsZero p = true)) →
    t.noFault = true

/-- 30_encoding R70, R76, 70_reset R244: every command leaves one result record. On each port the records, the commands
still to come and the read that waits stay the same number in all. That records and commands stand in State is the
model's choice, logs 6 and 9. -/
def Obligations.EveryCommandLeavesOneRecord : Prop :=
  ∀ s t : State, step s = .next t → ∀ p : Port,
    (t.results.get p).length + (t.inbox.get p).length + (if p = .consumer ∧ t.rdwait ≠ none then 1 else 0) =
      (s.results.get p).length + (s.inbox.get p).length + (if p = .consumer ∧ s.rdwait ≠ none then 1 else 0)

/-- 70_reset R244: a run has ended where every port has taken every command of its list and no read waits; from there on
a step changes nothing that the run's observation has (the turn and the active port are the model's own, log 8). -/
def Obligations.EndedRunChangesNothing : Prop :=
  ∀ s : State, (s.runEnded = true ↔ (∀ p, s.inbox.get p = []) ∧ s.rdwait = none) ∧
    (s.observation = if s.runEnded then some s else none) ∧
    (s.runEnded = true → ∃ t, step s = .next t ∧ t.runEnded = true ∧
      t = { s with sched := t.sched, active := t.active })

/-- 70_reset R244, 00_scope R5: whatever the ports' finite lists, some interleaving brings the run to its end, from every
state that meets the invariant, and leaves one record for each command and for a read that waited. -/
def Obligations.EveryRunCanEnd : Prop :=
  ∀ s : State, s.Inv → s.inboxFits = true →
    ∃ (ps : List Port) (k : Nat) (t : State),
      Sys2Proof.core.run k { s with sched := ps } = .next t ∧ t.runEnded = true ∧
      ∀ p : Port, (t.results.get p).length =
        (s.results.get p).length + (s.inbox.get p).length + (if p = .consumer ∧ s.rdwait ≠ none then 1 else 0)

/-! ### The FIFO unit -/

/-- 40_fifo R101: FIFO.WRITE, with its frame. Byte `j` of the payload goes to offset `(head + j) mod N`; every other
offset reads as before; nothing changes but what is named. -/
def Obligations.FifoWriteWritesAllOrDropsAll : Prop :=
  ∀ (s : State) (len : BitVec 24) (bs : List Byte), s.active = .producer → bs.length = len.toNat →
    (len = 0 → exec (.fifoWrite len bs) s = .next { s with results := s.answered ⟨.ok, 0, .none⟩ }) ∧
    (len ≠ 0 → s.capacity - s.count < len.toNat →
      exec (.fifoWrite len bs) s = .next { s with
        events := s.events ++ [.drop (len.setWidth 32) ((len / 8).setWidth 32)],
        results := s.answered ⟨.dropped, 0, .none⟩ }) ∧
    (len ≠ 0 → len.toNat ≤ s.capacity - s.count →
      ∃ m : Memory,
        exec (.fifoWrite len bs) s = .next { s with
          buf := m, head := (s.head + len.toNat) % s.capacity, count := s.count + len.toNat,
          events := s.events ++ [.occ (s.count + len.toNat)],
          results := s.answered ⟨.ok, len.setWidth 32, .none⟩ } ∧
        (∀ j < len.toNat, Memory.read m ((s.head + j) % s.capacity) = bs[j]?) ∧
        ∀ a, (∀ j < len.toNat, a ≠ (s.head + j) % s.capacity) → Memory.read m a = Memory.read s.buf a)

/-- 40_fifo R102, R103: FIFO.READ's issue step, with its frame: no bytes for a zero length, the oldest `len` valid
bytes where they are there, and else the port waits. -/
def Obligations.FifoReadTakesOldestBytesOrWaits : Prop :=
  ∀ (s : State) (len : BitVec 24), s.active = .consumer → s.rdwait = none → s.Inv →
    (len = 0 → exec (.fifoRead len) s = .next { s with results := s.answered ⟨.ok, 0, .bytes []⟩ }) ∧
    (len ≠ 0 → len.toNat ≤ s.count →
      ∃ bs : List Byte, bs.length = len.toNat ∧
        (∀ j < len.toNat, bs[j]? = Memory.read s.buf ((s.tail + j) % s.capacity)) ∧
        exec (.fifoRead len) s = .next { s with
          tail := (s.tail + len.toNat) % s.capacity, count := s.count - len.toNat,
          events := s.events ++ [.occ (s.count - len.toNat)],
          results := s.answered ⟨.ok, len.setWidth 32, .bytes bs⟩ }) ∧
    (s.count < len.toNat → exec (.fifoRead len) s = .next { s with rdwait := some len })

/-- 40_fifo R103: the completion of a waiting read as a step of its own, with its frame. That it is a turn of port C, or
the step when no turn is left, is the model's choice, log 7. -/
def Obligations.WaitingReadCompletesWhenBytesAreThere : Prop :=
  ∀ (s : State) (len : BitVec 24), s.Inv → s.rdwait = some len →
    (s.sched = [] ∨ ∃ ps, s.sched = .consumer :: ps) → len.toNat ≤ s.count →
    ∃ bs : List Byte, bs.length = len.toNat ∧
      (∀ j < len.toNat, bs[j]? = Memory.read s.buf ((s.tail + j) % s.capacity)) ∧
      step s = .next { s with
        sched := s.sched.tail, active := .consumer, rdwait := none,
        tail := (s.tail + len.toNat) % s.capacity, count := s.count - len.toNat,
        events := s.events ++ [.occ (s.count - len.toNat)],
        results := s.results.set .consumer (s.results.get .consumer ++ [⟨.ok, len.setWidth 32, .bytes bs⟩]) }

/-- 60_exceptions R203: a wait that ends while the bytes are short ends TIMEOUT and consumes nothing; so a read of more
than `N` bytes waits and its wait ends TIMEOUT (70_reset R238). That the wait ends at a turn of port C, or when no turn
is left, is the model's choice, log 7. -/
def Obligations.ShortWaitEndsInTimeout : Prop :=
  (∀ (s : State) (len : BitVec 24), s.rdwait = some len → (s.sched = [] ∨ ∃ ps, s.sched = .consumer :: ps) →
    s.count < len.toNat →
    step s = .next { s with
      sched := s.sched.tail, active := .consumer, rdwait := none,
      results := s.results.set .consumer (s.results.get .consumer ++ [⟨.timeout, 0, .none⟩]) }) ∧
  ∀ (s : State) (len : BitVec 24), s.Inv → s.capacity < len.toNat →
    (s.active = .consumer → exec (.fifoRead len) s = .next { s with rdwait := some len }) ∧
    (s.rdwait = some len → (s.sched = [] ∨ ∃ ps, s.sched = .consumer :: ps) →
      step s = .next { s with
        sched := s.sched.tail, active := .consumer, rdwait := none,
        results := s.results.set .consumer (s.results.get .consumer ++ [⟨.timeout, 0, .none⟩]) })

/-- 40_fifo R104, 70_reset R243: every wait ends. Whatever the ports do meanwhile, within one step more than there are
turns left the waiting read has ended, with one result record, OK or TIMEOUT. That a wait ends when no turn is left is
the model's form of the fairness, log 7. -/
def Obligations.EveryWaitEnds : Prop :=
  ∀ (s : State) (len : BitVec 24), s.Inv → s.inboxFits = true → s.rdwait = some len →
    ∃ k ≤ s.sched.length + 1, ∃ (t : State) (r : Result),
      Sys2Proof.core.run k s = .next t ∧ t.rdwait = none ∧
      t.results.get .consumer = s.results.get .consumer ++ [r] ∧ (r.status = .ok ∨ r.status = .timeout)

/-- 40_fifo R105: FIFO.RESET, with its frame: the storage, the waiting read and everything else are kept. -/
def Obligations.FifoResetEmptiesTheFifo : Prop :=
  ∀ s : State, s.active = .control →
    exec .fifoReset s = .next { s with
      head := 0, tail := 0, count := 0,
      faults := if s.rdwait = none then s.faults else { s.faults with resetRace := true },
      events := if s.count = 0 then s.events else s.events ++ [.occ 0],
      results := s.answered ⟨.ok, 0, .none⟩ }

/-- 40_fifo R106, R107: the snapshot reads, on every port, with their frame. -/
def Obligations.AvailableReadsAreSnapshots : Prop :=
  ∀ s : State,
    exec .fifoAvailRd s = .next { s with results := s.answered ⟨.ok, BitVec.ofNat 32 s.count, .none⟩ } ∧
    exec .fifoAvailWr s = .next { s with
      results := s.answered ⟨.ok, BitVec.ofNat 32 (s.cfg.capacity - s.count), .none⟩ }

/-- 20_memory R55: the FIFO is a queue of bytes. Accepted writes append their bytes, dropped ones none; a read returns
the oldest bytes and removes them, in its issue step or at its wait-end; a read that starts to wait or times out, a
command on a wrong port and every other command leave the queue; a reset empties it. That the wait-end is a turn of port
C, or the step when no turn is left, is the model's choice, log 7. -/
def Obligations.FifoIsByteQueue : Prop :=
  (∀ (i : Instr) (s t : State), s.Inv → i.wf = true → exec i s = .next t →
    (∀ len bs, i = .fifoWrite len bs → s.active = .producer →
      t.validBytes = s.validBytes ++ if len.toNat ≤ s.capacity - s.count then bs else []) ∧
    (∀ len payload, i = .pipeProcess len payload → s.active = .producer →
      t.validBytes = s.validBytes ++
        if len.toNat % 2 = 0 ∧ s.cfg.minIn ≤ len.toNat ∧ 4 * len.toNat ≤ s.capacity - s.count then
          ser (firOutputs s.cfg s.hist (samplesOf payload)) else []) ∧
    (∀ len, i = .fifoRead len → s.active = .consumer → len.toNat ≤ s.count →
      t.results = s.answered ⟨.ok, len.setWidth 32, .bytes (s.validBytes.take len.toNat)⟩ ∧
      t.validBytes = s.validBytes.drop len.toNat) ∧
    (∀ len, i = .fifoRead len → s.active = .consumer → s.count < len.toNat →
      t.rdwait = some len ∧ t.results = s.results ∧ t.validBytes = s.validBytes) ∧
    (i = .fifoReset → s.active = .control → t.validBytes = []) ∧
    (s.active ∉ i.opcode.ports → t.validBytes = s.validBytes) ∧
    (i.opcode ∉ [.fifoWrite, .pipeProcess, .fifoRead, .fifoReset] → t.validBytes = s.validBytes) ∧
    s.validBytes.length = s.count) ∧
  ∀ (s t : State) (len : BitVec 24), s.Inv → s.rdwait = some len →
    (s.sched = [] ∨ ∃ ps, s.sched = .consumer :: ps) → step s = .next t →
    (len.toNat ≤ s.count →
      t.results.get .consumer =
        s.results.get .consumer ++ [⟨.ok, len.setWidth 32, .bytes (s.validBytes.take len.toNat)⟩] ∧
      t.validBytes = s.validBytes.drop len.toNat) ∧
    (s.count < len.toNat →
      t.results.get .consumer = s.results.get .consumer ++ [⟨.timeout, 0, .none⟩] ∧ t.validBytes = s.validBytes)

/-- 40_fifo R110: EV_OCC is emitted in every step that changes `count`, once and with the new value, and in no other
step. -/
def Obligations.OccupancyEventExactlyOnChange : Prop :=
  ∀ s t : State, s.Inv → step s = .next t →
    ∃ es, t.events = s.events ++ es ∧
      es.filter Event.isOcc = if t.count = s.count then [] else [.occ t.count]

/-! ### The FIR unit -/

/-- 41_filter R137: FIR.RESET, with its frame. -/
def Obligations.FirResetZeroesHistory : Prop :=
  ∀ s : State, s.active = .producer →
    exec .firReset s = .next { s with
      hist := List.replicate s.cfg.tapCount ⟨0x00000000#32, 0x00000000#32⟩,
      results := s.answered ⟨.ok, 0, .none⟩ }

/-- 41_filter R138, R139, R141: FIR.PROCESS, with its frame. Output `n` of a block is `ARITH.fir` of the newest `T`
samples after input sample `2n+1`; there are exactly `LEN/2` outputs; the value is the peak power; a bad length
changes nothing. -/
def Obligations.FirProcessFiltersAndDecimates : Prop :=
  ∀ (s : State) (len : BitVec 24) (xs : List Sample), s.active = .producer →
    s.hist.length = s.cfg.tapCount → xs.length = len.toNat →
    ((len.toNat % 2 = 1 ∨ len.toNat < s.cfg.minIn) →
      exec (.firProcess len (xs.flatMap fun x => [x.i, x.q])) s =
        .next { s with results := s.answered ⟨.badLen, 0, .none⟩ }) ∧
    (len.toNat % 2 = 0 → s.cfg.minIn ≤ len.toNat →
      ∃ ys : List Sample, ys.length = len.toNat / 2 ∧
        (∀ n < len.toNat / 2, ys[n]? = some (firOut s.cfg (windowAt s.cfg s.hist xs (2 * n + 1)))) ∧
        exec (.firProcess len (xs.flatMap fun x => [x.i, x.q])) s = .next { s with
          hist := (xs.reverse ++ s.hist).take s.cfg.tapCount,
          results := s.answered
            ⟨.ok, peakPower s.cfg.nan ys, .words (ys.flatMap fun y => [y.i, y.q])⟩ })

/-- 41_filter R142: two blocks one after the other give the outputs and the history of the one long block. -/
def Obligations.BlocksMayBeSplit : Prop :=
  ∀ (s : State) (len₁ len₂ : BitVec 24) (xs₁ xs₂ : List Sample), s.active = .producer →
    xs₁.length = len₁.toNat → xs₂.length = len₂.toNat → len₁.toNat + len₂.toNat < 2 ^ 24 →
    len₁.toNat % 2 = 0 → len₂.toNat % 2 = 0 → s.cfg.minIn ≤ len₁.toNat → s.cfg.minIn ≤ len₂.toNat →
    ∃ (t₁ t₂ u : State) (v₁ v₂ v : Word) (ws₁ ws₂ : List Word),
      exec (.firProcess len₁ (xs₁.flatMap fun x => [x.i, x.q])) s = .next t₁ ∧
      exec (.firProcess len₂ (xs₂.flatMap fun x => [x.i, x.q])) t₁ = .next t₂ ∧
      exec (.firProcess (len₁ + len₂) ((xs₁ ++ xs₂).flatMap fun x => [x.i, x.q])) s = .next u ∧
      t₁.results = s.answered ⟨.ok, v₁, .words ws₁⟩ ∧
      t₂.results = t₁.answered ⟨.ok, v₂, .words ws₂⟩ ∧
      u.results = s.answered ⟨.ok, v, .words (ws₁ ++ ws₂)⟩ ∧
      t₂.hist = u.hist

/-- 41_filter R133, R134: under the reference, one output is the sum over the active taps in ascending order, lane by
lane, started at `+0.0`; the active taps are the centre and those at an odd distance from it (R131). -/
def Obligations.ReferenceOutputSumsActiveTaps : Prop :=
  ∀ (c : Config) (hist : List Sample), c.arith = .reference →
    firOut c hist =
      ⟨c.activeTaps.foldl (fun acc k => fpAdd c.nan acc (fpMul c.nan (c.tap k) (histAt hist k).i)) 0x00000000#32,
       c.activeTaps.foldl (fun acc k => fpAdd c.nan acc (fpMul c.nan (c.tap k) (histAt hist k).q)) 0x00000000#32⟩ ∧
    c.activeTaps.Pairwise (· < ·) ∧
    ∀ k, k ∈ c.activeTaps ↔ k < c.tapCount ∧ (k = c.centre ∨ k % 2 ≠ c.centre % 2)

/-- 41_filter R133: "the I lane of the output depends only on the I lane of the input, and the Q lane only on Q", and on
the samples at the active taps only (R143), under every ARITH. -/
def Obligations.LanesAreSeparate : Prop :=
  ∀ (c : Config) (h h' : List Sample) (l : Lane),
    (∀ k ∈ c.activeTaps, (histAt h k).lane l = (histAt h' k).lane l) → (firOut c h).lane l = (firOut c h').lane l

/-- 41_filter R135: "Where every product and partial sum of rule R133 is exactly representable in binary32, every such
implementation returns the exact sum", under every ARITH. The partial sums are those of R133's sum in the ascending order
of R131, and an exact sum of 0 is `+0.0` (log 3). Products and sums are in units of 2^-298, so a binary32 value is a
multiple of 2^149. -/
def Obligations.ExactSumsAreReturnedByEveryArith : Prop :=
  ∀ (c : Config) (hist : List Sample) (l : Lane), c.valid = true →
    (∀ k ∈ c.activeTaps, fpIsFinite ((histAt hist k).lane l) = true) →
    (∀ k ∈ c.activeTaps, ∃ w : F32, fpIsFinite w = true ∧
      fpVal w * 2 ^ 149 = fpVal (c.tap k) * fpVal ((histAt hist k).lane l)) →
    (∀ n, ∃ w : F32, fpIsFinite w = true ∧
      fpVal w * 2 ^ 149 =
        ((c.activeTaps.take n).map fun k => fpVal (c.tap k) * fpVal ((histAt hist k).lane l)).sum) →
    fpIsFinite ((firOut c hist).lane l) = true ∧
    fpVal ((firOut c hist).lane l) * 2 ^ 149 =
      (c.activeTaps.map fun k => fpVal (c.tap k) * fpVal ((histAt hist k).lane l)).sum ∧
    (fpVal ((firOut c hist).lane l) = 0 → (firOut c hist).lane l = 0x00000000#32)

/-- 41_filter R143, IEEE 754 propagation: a NaN at an active tap gives a NaN on its lane. Under an ARITH that is not the
reference this is log 3. -/
def Obligations.NanAtActiveTapGivesNan : Prop :=
  ∀ (c : Config) (hist : List Sample) (l : Lane), (∃ k ∈ c.activeTaps, fpIsNaN ((histAt hist k).lane l) = true) →
    fpIsNaN ((firOut c hist).lane l) = true

/-- 41_filter R143: a sample at a skipped position does not reach the output, under every ARITH; under the reference an
all-zero window of either sign gives `+0.0` on both lanes. -/
def Obligations.SkippedTapsDoNotReachOutput : Prop :=
  ∀ c : Config,
    (∀ h h' : List Sample, (∀ k ∈ c.activeTaps, histAt h k = histAt h' k) → firOut c h = firOut c h') ∧
    (c.arith = .reference → c.valid = true → ∀ h : List Sample,
      (∀ k ∈ c.activeTaps, fpIsZero (histAt h k).i = true ∧ fpIsZero (histAt h k).q = true) →
      firOut c h = ⟨0x00000000#32, 0x00000000#32⟩)

/-- 41_filter R140: after FIR.RESET a unit impulse at sample `i0` gives on the I lane the tap `h[2n+1-i0]` where it is
active and `+0.0` otherwise, and `+0.0` on the Q lane, under the reference. A tap that is itself a negative zero gives
the zero of the same value. -/
def Obligations.ImpulseResponseIsTheTaps : Prop :=
  ∀ (s : State) (len : BitVec 24) (i0 : Nat), s.active = .producer → s.cfg.valid = true →
    s.cfg.arith = .reference → i0 < len.toNat → len.toNat % 2 = 0 → s.cfg.minIn ≤ len.toNat →
    ∃ (t u : State) (peak : F32) (ys : List Sample),
      exec .firReset s = .next t ∧
      exec (.firProcess len
        ((List.range len.toNat).flatMap fun m => [if m = i0 then 0x3F800000#32 else 0x00000000#32, 0x00000000#32])) t
        = .next u ∧
      u.results = t.answered ⟨.ok, peak, .words (ys.flatMap fun y => [y.i, y.q])⟩ ∧
      ys.length = len.toNat / 2 ∧
      ∀ (n : Nat) (y : Sample), ys[n]? = some y →
        y.q = 0x00000000#32 ∧ fpIsFinite y.i = true ∧
        (i0 ≤ 2 * n + 1 → 2 * n + 1 - i0 ∈ s.cfg.activeTaps → fpVal y.i = fpVal (s.cfg.tap (2 * n + 1 - i0))) ∧
        (i0 ≤ 2 * n + 1 → 2 * n + 1 - i0 ∉ s.cfg.activeTaps → y.i = 0x00000000#32) ∧
        (2 * n + 1 < i0 → y.i = 0x00000000#32)

/-- 41_filter R136: the peak of a block is `+0.0` or the power of one of its outputs, no output has a greater power,
and it is never a NaN and never negative. -/
def Obligations.PeakIsTheGreatestPower : Prop :=
  ∀ (r : NanRule) (ys : List Sample),
    fpIsNaN (peakPower r ys) = false ∧ fpSign (peakPower r ys) = false ∧
    (peakPower r ys = 0x00000000#32 ∨
      ∃ y ∈ ys, peakPower r ys = fpAdd r (fpMul r y.i y.i) (fpMul r y.q y.q)) ∧
    ∀ y ∈ ys, fpGt (fpAdd r (fpMul r y.i y.i) (fpMul r y.q y.q)) (peakPower r ys) = false

/-! ### Binary32 arithmetic -/

/-- 00_scope R16: `+f`, `-f` and `*f` of finite values round the exact result to a nearest binary32 value, ties to even,
in units of 2^-149 for sums and differences and 2^-298 for products, where the result is finite; an exact value is kept.
That R16 names IEEE 754's rounding is log 13. -/
def Obligations.SumsAndProductsRoundToNearestEven : Prop :=
  ∀ (r : NanRule) (a b : F32), fpIsFinite a = true → fpIsFinite b = true →
    (fpIsFinite (fpAdd r a b) = true → ∀ w : F32, fpIsFinite w = true →
      |fpVal (fpAdd r a b) - (fpVal a + fpVal b)| ≤ |fpVal w - (fpVal a + fpVal b)| ∧
      (|fpVal (fpAdd r a b) - (fpVal a + fpVal b)| = |fpVal w - (fpVal a + fpVal b)| →
        fpVal w ≠ fpVal (fpAdd r a b) → (fpAdd r a b).toNat % 2 = 0)) ∧
    (fpIsFinite (fpSub r a b) = true → ∀ w : F32, fpIsFinite w = true →
      |fpVal (fpSub r a b) - (fpVal a - fpVal b)| ≤ |fpVal w - (fpVal a - fpVal b)| ∧
      (|fpVal (fpSub r a b) - (fpVal a - fpVal b)| = |fpVal w - (fpVal a - fpVal b)| →
        fpVal w ≠ fpVal (fpSub r a b) → (fpSub r a b).toNat % 2 = 0)) ∧
    (fpIsFinite (fpMul r a b) = true → ∀ w : F32, fpIsFinite w = true →
      |fpVal (fpMul r a b) * 2 ^ 149 - fpVal a * fpVal b| ≤ |fpVal w * 2 ^ 149 - fpVal a * fpVal b| ∧
      (|fpVal (fpMul r a b) * 2 ^ 149 - fpVal a * fpVal b| = |fpVal w * 2 ^ 149 - fpVal a * fpVal b| →
        fpVal w ≠ fpVal (fpMul r a b) → (fpMul r a b).toNat % 2 = 0))

/-- 00_scope R16, "IEEE 754 results for zeros, infinities and NaN", as log 13 gives them: sums and differences. Finite
operands whose exact sum lies half an ulp above the greatest finite value or farther give the infinity of its sign, and
all others a finite result; an exact 0 is `+0.0` but for two negative zeros. -/
def Obligations.SpecialSumsFollowIeee754 : Prop :=
  ∀ (r : NanRule) (a b : F32),
    (fpIsNaN a = true ∨ fpIsNaN b = true → fpIsNaN (fpAdd r a b) = true ∧ fpIsNaN (fpSub r a b) = true ∧
      fpGt a b = false ∧ fpEq a b = false) ∧
    (fpIsInf a = true → fpIsFinite b = true →
      fpAdd r a b = a ∧ fpAdd r b a = a ∧ fpSub r a b = a ∧ fpSub r b a = a ^^^ 0x80000000#32) ∧
    (fpIsInf a = true → fpIsInf b = true → fpSign a = fpSign b → fpAdd r a b = a ∧ fpIsNaN (fpSub r a b) = true) ∧
    (fpIsInf a = true → fpIsInf b = true → fpSign a ≠ fpSign b → fpIsNaN (fpAdd r a b) = true ∧ fpSub r a b = a) ∧
    (fpIsFinite a = true → fpIsFinite b = true →
      ((2 ^ 25 - 1) * 2 ^ 252 ≤ fpVal a + fpVal b → fpAdd r a b = 0x7F800000#32) ∧
      (fpVal a + fpVal b ≤ -((2 ^ 25 - 1) * 2 ^ 252) → fpAdd r a b = 0xFF800000#32) ∧
      (|fpVal a + fpVal b| < (2 ^ 25 - 1) * 2 ^ 252 → fpIsFinite (fpAdd r a b) = true) ∧
      (fpVal a + fpVal b = 0 →
        fpAdd r a b = if fpSign a = true ∧ fpSign b = true then 0x80000000#32 else 0x00000000#32) ∧
      ((2 ^ 25 - 1) * 2 ^ 252 ≤ fpVal a - fpVal b → fpSub r a b = 0x7F800000#32) ∧
      (fpVal a - fpVal b ≤ -((2 ^ 25 - 1) * 2 ^ 252) → fpSub r a b = 0xFF800000#32) ∧
      (|fpVal a - fpVal b| < (2 ^ 25 - 1) * 2 ^ 252 → fpIsFinite (fpSub r a b) = true) ∧
      (fpVal a - fpVal b = 0 →
        fpSub r a b = if fpSign a = true ∧ fpSign b = false then 0x80000000#32 else 0x00000000#32))

/-- 00_scope R16, "IEEE 754 results for zeros, infinities and NaN", as log 13 gives them: products. A result that is no
NaN has the sign that its factors' signs give. -/
def Obligations.SpecialProductsFollowIeee754 : Prop :=
  ∀ (r : NanRule) (a b : F32),
    (fpIsNaN (fpMul r a b) = true ↔ fpIsNaN a = true ∨ fpIsNaN b = true ∨
      fpIsInf a = true ∧ fpIsZero b = true ∨ fpIsZero a = true ∧ fpIsInf b = true) ∧
    (fpIsNaN (fpMul r a b) = false → fpSign (fpMul r a b) = (fpSign a != fpSign b)) ∧
    (fpIsInf a = true ∨ fpIsInf b = true → fpIsNaN (fpMul r a b) = false → fpIsInf (fpMul r a b) = true) ∧
    (fpIsFinite a = true → fpIsFinite b = true →
      (fpIsInf (fpMul r a b) = true ↔ (2 ^ 25 - 1) * 2 ^ 252 * 2 ^ 149 ≤ |fpVal a * fpVal b|) ∧
      (fpVal a * fpVal b = 0 → fpIsZero (fpMul r a b) = true))

/-! ### The LT unit -/

/-- 42_level_tracker R162: LT.RESET, with its frame. -/
def Obligations.LtResetSetsNeutralLevel : Prop :=
  ∀ s : State, s.active = .producer →
    exec .ltReset s = .next { s with
      level := s.cfg.levelInit, events := s.events ++ [.level s.cfg.levelInit],
      results := s.answered ⟨.ok, s.cfg.levelInit, .none⟩ }

/-- 42_level_tracker R163, R161: LT.UPDATE, with its frame; a negative or NaN power records LT_CONTRACT (R165), and
under the reference the new level is `l +f (a *f (p -f l))` with ATTACK where `p > l` and RELEASE otherwise. The clause
for another ARITH is the model's choice, log 3. -/
def Obligations.LtUpdateAppliesUpdateLaw : Prop :=
  ∀ (s : State) (p : F32), s.active = .producer →
    ∃ l : F32,
      exec (.ltUpdate p) s = .next { s with
        level := l, events := s.events ++ [.level l],
        faults := if fpIsNaN p = true ∨ fpSign p = true ∧ fpIsZero p = false then
          { s.faults with ltContract := true } else s.faults,
        results := s.answered ⟨.ok, l, .none⟩ } ∧
      (s.cfg.arith = .reference →
        l = fpAdd s.cfg.nan s.level
          (fpMul s.cfg.nan (if fpGt p s.level then s.cfg.attack else s.cfg.release) (fpSub s.cfg.nan p s.level))) ∧
      (s.cfg.arith = .implementation →
        l = Config.implLt (if fpGt p s.level then s.cfg.attack else s.cfg.release) s.level p)

/-- 42_level_tracker R164: LT.READ, on every port, with its frame. -/
def Obligations.LtReadReturnsLevel : Prop :=
  ∀ s : State, exec .ltRead s = .next { s with results := s.answered ⟨.ok, s.level, .none⟩ }

/-- 42_level_tracker R167: a command announces the level it writes, in the same step. An LT.RESET, an LT.UPDATE and a
PIPE.PROCESS of an accepted length, on port P, emit one EV_LEVEL, first and with the new value; every other command
emits none and leaves the level. -/
def Obligations.EveryLevelWriteIsAnnounced : Prop :=
  ∀ (i : Instr) (s t : State), exec i s = .next t →
    ∃ (es : List Event) (writes : Prop), t.events = s.events ++ es ∧
      (writes ↔ s.active = .producer ∧ (i = .ltReset ∨ (∃ p, i = .ltUpdate p) ∨
        ∃ len payload, i = .pipeProcess len payload ∧ len.toNat % 2 = 0 ∧ s.cfg.minIn ≤ len.toNat)) ∧
      (writes → es.head? = some (.level t.level) ∧ ∀ v, .level v ∉ es.tail) ∧
      (¬ writes → (∀ v, .level v ∉ es) ∧ t.level = s.level)

/-- 42_level_tracker R163, corner cases, under the reference: a NaN level stays NaN, and a power equal to a finite level
(a zero of the other sign among them) leaves the level's value. -/
def Obligations.NanLevelStaysAndEqualPowerKeeps : Prop :=
  ∀ c : Config, c.arith = .reference → c.valid = true → ∀ l p : F32,
    (fpIsNaN l = true → fpIsNaN (ltStep c l p) = true) ∧
    (fpIsFinite l = true → fpEq p l = true →
      fpIsFinite (ltStep c l p) = true ∧ fpVal (ltStep c l p) = fpVal l)

/-- 42_level_tracker R163, corner case, under the reference: a power of `+Inf` drives a finite level to `+Inf`, and a
later finite power gives NaN. -/
def Obligations.InfinitePowerDrivesLevelToInfinity : Prop :=
  ∀ c : Config, c.arith = .reference → c.valid = true →
    (∀ l : F32, fpIsFinite l = true → ltStep c l 0x7F800000#32 = 0x7F800000#32) ∧
    ∀ p : F32, fpIsFinite p = true → fpIsNaN (ltStep c 0x7F800000#32 p) = true

/-- 42_level_tracker R168, as far as it is true under the reference: from a finite level and a finite power, neither
negative, the new level is no NaN and not negative, and it is finite where both are below 2^127. -/
def Obligations.TrackerKeepsRangeBelowTheTop : Prop :=
  ∀ c : Config, c.arith = .reference → c.valid = true → ∀ l p : F32,
    fpInRange l = true → fpInRange p = true →
    fpIsNaN (ltStep c l p) = false ∧ 0 ≤ fpVal (ltStep c l p) ∧
    (fpExp l ≤ 253 → fpExp p ≤ 253 → fpIsFinite (ltStep c l p) = true)

/-- 42_level_tracker R168 word for word. It fails: with ATTACK = 1, a power at the top of the range and a level of
3*2^103, both roundings go up and the sum overflows to infinity. -/
def Obligations.TrackerKeepsRangeAsTheSpecSays : Prop :=
  ∀ c : Config, c.arith = .reference → c.valid = true → ∀ l p : F32,
    fpInRange l = true → fpInRange p = true → fpInRange (ltStep c l p) = true

/-! ### The PIPE composite -/

/-- 43_pipeline R180, R181, R182: PIPE.PROCESS, with its frame. The history and the level advance whether or not the
block fits; the filtered block is written whole at `head`, byte `j` at offset `(head + j) mod N`, or dropped whole. -/
def Obligations.PipeFiltersTracksAndWritesOrDrops : Prop :=
  ∀ (s : State) (len : BitVec 24) (xs : List Sample), s.active = .producer →
    s.hist.length = s.cfg.tapCount → xs.length = len.toNat →
    ((len.toNat % 2 = 1 ∨ len.toNat < s.cfg.minIn) →
      exec (.pipeProcess len (xs.flatMap fun x => [x.i, x.q])) s =
        .next { s with results := s.answered ⟨.badLen, 0, .none⟩ }) ∧
    (len.toNat % 2 = 0 → s.cfg.minIn ≤ len.toNat →
      ∃ (ys : List Sample) (l : F32), ys.length = len.toNat / 2 ∧
        (∀ n < len.toNat / 2, ys[n]? = some (firOut s.cfg (windowAt s.cfg s.hist xs (2 * n + 1)))) ∧
        l = ltStep s.cfg s.level (peakPower s.cfg.nan ys) ∧
        (s.capacity - s.count < 4 * len.toNat →
          exec (.pipeProcess len (xs.flatMap fun x => [x.i, x.q])) s = .next { s with
            hist := (xs.reverse ++ s.hist).take s.cfg.tapCount, level := l,
            events := s.events ++ [.level l, .drop (BitVec.ofNat 32 (4 * len.toNat)) (BitVec.ofNat 32 (len.toNat / 2))],
            results := s.answered ⟨.dropped, l, .none⟩ }) ∧
        (4 * len.toNat ≤ s.capacity - s.count →
          ∃ m : Memory,
            exec (.pipeProcess len (xs.flatMap fun x => [x.i, x.q])) s = .next { s with
              hist := (xs.reverse ++ s.hist).take s.cfg.tapCount, level := l,
              buf := m, head := (s.head + 4 * len.toNat) % s.capacity, count := s.count + 4 * len.toNat,
              events := s.events ++ [.level l, .occ (s.count + 4 * len.toNat)],
              results := s.answered ⟨.ok, l, .none⟩ } ∧
            (∀ j < 4 * len.toNat, Memory.read m ((s.head + j) % s.capacity) = (ser ys)[j]?) ∧
            ∀ a, (∀ j < 4 * len.toNat, a ≠ (s.head + j) % s.capacity) → Memory.read m a = Memory.read s.buf a))

/-- 20_memory R54, R53: a block of `n` samples is `8n` bytes, each sample the four bytes of `I` and then those of `Q`,
the low byte first. -/
def Obligations.SamplesAreSerializedLittleEndian : Prop :=
  ∀ ys : List Sample, (ser ys).length = 8 * ys.length ∧
    ∀ (n : Nat) (y : Sample), ys[n]? = some y → ∀ b < 4,
      (ser ys)[8 * n + b]? = some (BitVec.ofNat 8 (y.i.toNat / 256 ^ b)) ∧
      (ser ys)[8 * n + 4 + b]? = some (BitVec.ofNat 8 (y.q.toNat / 256 ^ b))

/-- 43_pipeline R183: PIPE.PROCESS leaves the block as FIR.PROCESS, LT.UPDATE of its peak and FIFO.WRITE of its
serialized outputs do, one after the other on port P, where FIFO.WRITE's length field can say the length; its status is
FIFO.WRITE's and its value the level. -/
def Obligations.PipeEqualsFilterTrackWrite : Prop :=
  ∀ (s : State) (len : BitVec 24) (xs : List Sample), s.active = .producer → xs.length = len.toNat →
    len.toNat % 2 = 0 → s.cfg.minIn ≤ len.toNat → 0 < len.toNat → 4 * len.toNat < 2 ^ 24 →
    ∃ (t₁ t₂ t₃ u : State) (peak : F32) (ys : List Sample) (st : Status) (v : Word),
      exec (.firProcess len (xs.flatMap fun x => [x.i, x.q])) s = .next t₁ ∧
      t₁.results = s.answered ⟨.ok, peak, .words (ys.flatMap fun y => [y.i, y.q])⟩ ∧
      exec (.ltUpdate peak) t₁ = .next t₂ ∧
      exec (.fifoWrite (4 * len) (ser ys)) t₂ = .next t₃ ∧
      t₃.results = t₂.answered ⟨st, v, .none⟩ ∧
      exec (.pipeProcess len (xs.flatMap fun x => [x.i, x.q])) s = .next u ∧
      u = { t₃ with results := s.answered ⟨st, t₃.level, .none⟩ }
end

