-- ==== Sys2Proof/Laws/Decode.lean ====
section
/-! SUPPORT. The fields of a command word, and the opcode map. -/

namespace Sys2Proof

@[simp] theorem opField_commandWord (o : Opcode) (arg : BitVec 24) : opField (commandWord o arg) = o.code := by
  unfold opField commandWord
  ext i hi
  simp only [BitVec.getElem_extractLsb', BitVec.getLsbD_append]
  simp [hi]

@[simp] theorem argField_commandWord (o : Opcode) (arg : BitVec 24) : argField (commandWord o arg) = arg := by
  unfold argField commandWord
  ext i hi
  simp only [BitVec.getElem_extractLsb', BitVec.getLsbD_append]
  simp [hi]

/-- A word is made of its fields. -/
theorem commandWord_of_fields {w : Word} {o : Opcode} (h : opField w = o.code) :
    commandWord o (argField w) = w := by
  unfold commandWord argField
  rw [← h]
  unfold opField
  refine BitVec.eq_of_getLsbD_eq fun i hi => ?_
  simp only [BitVec.getLsbD_append, BitVec.getLsbD_extractLsb']
  by_cases h24 : i < 24
  · simp [h24]
  · simp [h24, show i - 24 < 8 by omega, show 24 + (i - 24) = i by omega]

@[simp] theorem opcodeOf_code (o : Opcode) : opcodeOf o.code = some o := by
  cases o <;> rfl

theorem code_of_opcodeOf {op : BitVec 8} {o : Opcode} (h : opcodeOf op = some o) : op = o.code := by
  unfold opcodeOf at h
  have := List.find?_some h
  simpa using (beq_iff_eq.mp this).symm

/-- The rows do not overlap: no two have one OP. -/
theorem opcodes_codes_pairwise : opcodes.Pairwise fun a b => a.code ≠ b.code := by decide

@[simp] theorem payloadLength_commandWord (o : Opcode) (arg : BitVec 24) :
    payloadLength (commandWord o arg) = o.payload arg := by
  simp [payloadLength]

/-- The reserved OPs are those that no row has (30_encoding R80). -/
theorem opcodeOf_none_iff (op : BitVec 8) : opcodeOf op = none ↔ ∀ o : Opcode, o.code ≠ op := by
  constructor
  · intro h o ho
    subst ho
    simp at h
  · intro h
    unfold opcodeOf
    rw [List.find?_eq_none]
    intro o _ ho
    exact h o (by simpa using ho)

end Sys2Proof
end

