-- ==== Sys2Proof/Laws/Memory.lean ====
section
/-! SUPPORT. The laws of the FIFO storage: a read after a write, the canonical form, and what `memWrite` and `memRead`
do to each offset. -/

namespace Sys2Proof.Machine

@[simp] theorem Memory.read_nil (o : Nat) : Memory.read [] o = none := rfl

theorem Memory.read_cons (a : Nat) (b : Byte) (m : Memory) (o : Nat) :
    Memory.read ((a, b) :: m) o = if a = o then some b else Memory.read m o := rfl

/-- Buf[o] after `Buf[o'] <- b`. -/
theorem Memory.read_write (m : Memory) (o o' : Nat) (b : Byte) :
    Memory.read (Memory.write m o' b) o = if o = o' then some b else Memory.read m o := by
  induction m with
  | nil =>
    simp only [Memory.write, Memory.read, eq_comm]
  | cons cell m ih =>
    obtain ⟨a, x⟩ := cell
    simp only [Memory.write]
    split
    · simp only [Memory.read_cons, eq_comm]
    · split
      · subst_vars
        simp only [Memory.read_cons, eq_comm]
        split <;> simp_all
      · simp only [Memory.read_cons, ih]
        split <;> split <;> simp_all

@[simp] theorem Memory.read_write_same (m : Memory) (o : Nat) (b : Byte) :
    Memory.read (Memory.write m o b) o = some b := by
  simp [Memory.read_write]

theorem Memory.read_write_ne (m : Memory) {o o' : Nat} (b : Byte) (h : o ≠ o') :
    Memory.read (Memory.write m o' b) o = Memory.read m o := by
  simp [Memory.read_write, h]

/-- The offsets a write leaves listed: those that were, and the one written. -/
theorem Memory.mem_write {m : Memory} {o : Nat} {b : Byte} {cell : Host.Cell} (h : cell ∈ Memory.write m o b) :
    cell.1 = o ∨ cell ∈ m := by
  induction m with
  | nil => simp [Memory.write] at h; simp [h]
  | cons c m ih =>
    obtain ⟨a, x⟩ := c
    simp only [Memory.write] at h
    split at h
    · rcases List.mem_cons.mp h with h | h
      · simp [h]
      · exact .inr h
    · split at h
      · rcases List.mem_cons.mp h with h | h
        · simp [h]
        · exact .inr (List.mem_cons_of_mem _ h)
      · rcases List.mem_cons.mp h with h | h
        · exact .inr (by simp [h])
        · rcases ih h with h | h
          · exact .inl h
          · exact .inr (List.mem_cons_of_mem _ h)

theorem Memory.wf_cons (a : Nat) (x : Byte) (m : Memory) :
    Memory.wf ((a, x) :: m) = true ↔ (∀ cell ∈ m, a < cell.1) ∧ Memory.wf m = true := by
  simp [Memory.wf]

/-- A write keeps the canonical form. -/
theorem Memory.wf_write {m : Memory} (h : Memory.wf m = true) (o : Nat) (b : Byte) :
    Memory.wf (Memory.write m o b) = true := by
  induction m with
  | nil => simp [Memory.write, Memory.wf]
  | cons c m ih =>
    obtain ⟨a, x⟩ := c
    obtain ⟨hlt, hwf⟩ := (Memory.wf_cons a x m).mp h
    simp only [Memory.write]
    split
    · rename_i hoa
      refine (Memory.wf_cons _ _ _).mpr ⟨?_, h⟩
      intro cell hc
      rcases List.mem_cons.mp hc with hc | hc
      · simpa [hc] using hoa
      · exact Nat.lt_trans hoa (hlt cell hc)
    · split
      · rename_i hoa
        subst hoa
        exact (Memory.wf_cons _ _ _).mpr ⟨hlt, hwf⟩
      · refine (Memory.wf_cons _ _ _).mpr ⟨?_, ih hwf⟩
        intro cell hc
        rcases Memory.mem_write hc with hc | hc
        · omega
        · exact hlt cell hc

/-- `MemWrite` keeps the canonical form. -/
theorem memWrite_wf (N : Nat) (bs : List Byte) : ∀ (o : Nat) (m : Memory), Memory.wf m = true →
    Memory.wf (memWrite N o bs m) = true := by
  induction bs with
  | nil => intro o m h; exact h
  | cons b bs ih => intro o m h; exact ih _ _ (Memory.wf_write h _ _)

/-- `MemWrite` lists no offset outside `0..N-1`. -/
theorem memWrite_bound (N : Nat) (hN : 0 < N) (bs : List Byte) : ∀ (o : Nat) (m : Memory),
    (∀ cell ∈ m, cell.1 < N) → ∀ cell ∈ memWrite N o bs m, cell.1 < N := by
  induction bs with
  | nil => intro o m h; exact h
  | cons b bs ih =>
    intro o m h
    refine ih _ _ ?_
    intro cell hc
    rcases Memory.mem_write hc with hc | hc
    · rw [hc]; exact Nat.mod_lt _ hN
    · exact h cell hc

/-- An offset that `MemWrite` does not reach reads as before. -/
theorem memWrite_read_outside (N : Nat) (bs : List Byte) : ∀ (o : Nat) (m : Memory) (a : Nat),
    (∀ j < bs.length, a ≠ (o + j) % N) → Memory.read (memWrite N o bs m) a = Memory.read m a := by
  induction bs with
  | nil => intro o m a _; rfl
  | cons b bs ih =>
    intro o m a h
    simp only [memWrite]
    rw [ih (o + 1) _ a]
    · exact Memory.read_write_ne _ _ (by simpa using h 0 (by simp))
    · intro j hj
      have := h (j + 1) (by simpa using hj)
      rwa [show o + 1 + j = o + (j + 1) by omega]

/-- Two offsets less than `N` apart are different modulo `N`. -/
theorem offset_ne {N o i j : Nat} (hij : i < j) (hj : j < N) : (o + i) % N ≠ (o + j) % N := by
  intro h
  have h1 : (o + j) % N = ((o + i) % N + (j - i)) % N := by
    rw [Nat.mod_add_mod]; congr 1; omega
  have h2 : (o + i) % N < N := Nat.mod_lt _ (by omega)
  rw [← h] at h1
  have h3 : ((o + i) % N + (j - i)) % N = if (o + i) % N + (j - i) < N then (o + i) % N + (j - i)
      else (o + i) % N + (j - i) - N := by
    split
    · exact Nat.mod_eq_of_lt (by assumption)
    · rw [Nat.mod_eq_sub_mod (by omega), Nat.mod_eq_of_lt (by omega)]
  rw [h3] at h1
  split at h1 <;> omega

/-- Byte `j` of what `MemWrite` writes reads back, where the bytes fit the storage. -/
theorem memWrite_read_inside (N : Nat) (bs : List Byte) : ∀ (o : Nat) (m : Memory), bs.length ≤ N →
    ∀ j < bs.length, Memory.read (memWrite N o bs m) ((o + j) % N) = bs[j]? := by
  induction bs with
  | nil => intro o m _ j hj; simp at hj
  | cons b bs ih =>
    intro o m hN j hj
    simp only [memWrite]
    simp only [List.length_cons] at hN hj
    cases j with
    | zero =>
      rw [memWrite_read_outside]
      · simp
      · intro j hj'
        have := @offset_ne N o 0 (j + 1) (by omega) (by omega)
        rwa [show o + 1 + j = o + (j + 1) by omega]
    | succ j =>
      rw [show o + (j + 1) = o + 1 + j by omega, ih (o + 1) _ (by omega) j (by omega)]
      simp

/-- No write makes an offset `Unwritten`. -/
theorem memWrite_keeps_written (N : Nat) (bs : List Byte) : ∀ (o : Nat) (m : Memory) (a : Nat),
    (Memory.read m a).isSome = true → (Memory.read (memWrite N o bs m) a).isSome = true := by
  induction bs with
  | nil => intro o m a h; exact h
  | cons b bs ih =>
    intro o m a h
    refine ih _ _ _ ?_
    rw [Memory.read_write]
    split
    · rfl
    · exact h

/-- What `MemRead` answers: the bytes at its offsets, all of them written. -/
theorem memRead_ok (N n : Nat) (m : Memory) : ∀ (o : Nat) (bs : List Byte), memRead N o n m = .ok bs →
    bs.length = n ∧ ∀ j < n, bs[j]? = Memory.read m ((o + j) % N) := by
  induction n with
  | zero => intro o bs h; simp only [memRead, Except.ok.injEq] at h; subst h; simp
  | succ n ih =>
    intro o bs h
    simp only [memRead] at h
    split at h
    · exact absurd h (by simp)
    · rename_i b hb
      split at h
      · exact absurd h (by simp)
      · rename_i bs' hbs
        simp only [Except.ok.injEq] at h
        subst h
        obtain ⟨hl, hr⟩ := ih (o + 1) bs' hbs
        refine ⟨by simp [hl], ?_⟩
        intro j hj
        cases j with
        | zero => simpa using hb.symm
        | succ j =>
          rw [show o + (j + 1) = o + 1 + j by omega, ← hr j (by omega)]
          simp

/-- `MemRead` answers bytes where every one of its offsets is written. -/
theorem memRead_total (N n : Nat) (m : Memory) : ∀ (o : Nat),
    (∀ j < n, (Memory.read m ((o + j) % N)).isSome = true) → ∃ bs, memRead N o n m = .ok bs := by
  induction n with
  | zero => intro o _; exact ⟨[], rfl⟩
  | succ n ih =>
    intro o h
    obtain ⟨b, hb⟩ := Option.isSome_iff_exists.mp (h 0 (by omega))
    obtain ⟨bs, hbs⟩ := ih (o + 1) (fun j hj => by
      have := h (j + 1) (by omega)
      rwa [show o + 1 + j = o + (j + 1) by omega])
    refine ⟨b :: bs, ?_⟩
    rw [Nat.add_zero] at hb
    simp [memRead, hb, hbs]

end Sys2Proof.Machine
end

