-- ==== Sys2Proof/Laws/State.lean ====
section
/-! SUPPORT. One lemma per field per update of State, each by rfl, so that no proof unfolds a record update; and the
lemmas of `PerPort`. -/

namespace Sys2Proof

@[simp] theorem PerPort.get_set_same {α : Type} (v : PerPort α) (p : Port) (x : α) : (v.set p x).get p = x := by
  cases p <;> rfl

@[simp] theorem PerPort.get_set_ne {α : Type} (v : PerPort α) {p q : Port} (x : α) (h : q ≠ p) :
    (v.set p x).get q = v.get q := by
  cases p <;> cases q <;> first | rfl | exact absurd rfl h

theorem PerPort.get_set {α : Type} (v : PerPort α) (p q : Port) (x : α) :
    (v.set p x).get q = if q = p then x else v.get q := by
  cases p <;> cases q <;> rfl

@[simp] theorem PerPort.set_get {α : Type} (v : PerPort α) (p : Port) : v.set p (v.get p) = v := by
  cases p <;> rfl

end Sys2Proof

namespace Sys2Proof.Machine

section
variable (s : State) (f : ModelFault)

@[simp] theorem State.addFault_hist : (s.addFault f).hist = s.hist := rfl
@[simp] theorem State.addFault_level : (s.addFault f).level = s.level := rfl
@[simp] theorem State.addFault_buf : (s.addFault f).buf = s.buf := rfl
@[simp] theorem State.addFault_head : (s.addFault f).head = s.head := rfl
@[simp] theorem State.addFault_tail : (s.addFault f).tail = s.tail := rfl
@[simp] theorem State.addFault_count : (s.addFault f).count = s.count := rfl
@[simp] theorem State.addFault_rdwait : (s.addFault f).rdwait = s.rdwait := rfl
@[simp] theorem State.addFault_faults : (s.addFault f).faults = s.faults.insert f := rfl
@[simp] theorem State.addFault_events : (s.addFault f).events = s.events := rfl
@[simp] theorem State.addFault_results : (s.addFault f).results = s.results := rfl
@[simp] theorem State.addFault_cfg : (s.addFault f).cfg = s.cfg := rfl
@[simp] theorem State.addFault_inbox : (s.addFault f).inbox = s.inbox := rfl
@[simp] theorem State.addFault_sched : (s.addFault f).sched = s.sched := rfl
@[simp] theorem State.addFault_active : (s.addFault f).active = s.active := rfl

end

section
variable (s : State) (e : Event)

@[simp] theorem State.emit_hist : (s.emit e).hist = s.hist := rfl
@[simp] theorem State.emit_level : (s.emit e).level = s.level := rfl
@[simp] theorem State.emit_buf : (s.emit e).buf = s.buf := rfl
@[simp] theorem State.emit_head : (s.emit e).head = s.head := rfl
@[simp] theorem State.emit_tail : (s.emit e).tail = s.tail := rfl
@[simp] theorem State.emit_count : (s.emit e).count = s.count := rfl
@[simp] theorem State.emit_rdwait : (s.emit e).rdwait = s.rdwait := rfl
@[simp] theorem State.emit_faults : (s.emit e).faults = s.faults := rfl
@[simp] theorem State.emit_events : (s.emit e).events = s.events ++ [e] := rfl
@[simp] theorem State.emit_results : (s.emit e).results = s.results := rfl
@[simp] theorem State.emit_cfg : (s.emit e).cfg = s.cfg := rfl
@[simp] theorem State.emit_inbox : (s.emit e).inbox = s.inbox := rfl
@[simp] theorem State.emit_sched : (s.emit e).sched = s.sched := rfl
@[simp] theorem State.emit_active : (s.emit e).active = s.active := rfl

end

section
variable (s : State) (r : Result)

@[simp] theorem State.finish_hist : (s.finish r).hist = s.hist := rfl
@[simp] theorem State.finish_level : (s.finish r).level = s.level := rfl
@[simp] theorem State.finish_buf : (s.finish r).buf = s.buf := rfl
@[simp] theorem State.finish_head : (s.finish r).head = s.head := rfl
@[simp] theorem State.finish_tail : (s.finish r).tail = s.tail := rfl
@[simp] theorem State.finish_count : (s.finish r).count = s.count := rfl
@[simp] theorem State.finish_rdwait : (s.finish r).rdwait = s.rdwait := rfl
@[simp] theorem State.finish_faults : (s.finish r).faults = s.faults := rfl
@[simp] theorem State.finish_events : (s.finish r).events = s.events := rfl
@[simp] theorem State.finish_results : (s.finish r).results = s.results.set s.active (s.results.get s.active ++ [r]) := rfl
@[simp] theorem State.finish_cfg : (s.finish r).cfg = s.cfg := rfl
@[simp] theorem State.finish_inbox : (s.finish r).inbox = s.inbox := rfl
@[simp] theorem State.finish_sched : (s.finish r).sched = s.sched := rfl
@[simp] theorem State.finish_active : (s.finish r).active = s.active := rfl

end

section
variable (s : State) (v : Word)

@[simp] theorem State.finishOk_hist : (s.finishOk v).hist = s.hist := rfl
@[simp] theorem State.finishOk_level : (s.finishOk v).level = s.level := rfl
@[simp] theorem State.finishOk_buf : (s.finishOk v).buf = s.buf := rfl
@[simp] theorem State.finishOk_head : (s.finishOk v).head = s.head := rfl
@[simp] theorem State.finishOk_tail : (s.finishOk v).tail = s.tail := rfl
@[simp] theorem State.finishOk_count : (s.finishOk v).count = s.count := rfl
@[simp] theorem State.finishOk_rdwait : (s.finishOk v).rdwait = s.rdwait := rfl
@[simp] theorem State.finishOk_faults : (s.finishOk v).faults = s.faults := rfl
@[simp] theorem State.finishOk_events : (s.finishOk v).events = s.events := rfl
@[simp] theorem State.finishOk_results : (s.finishOk v).results = s.results.set s.active (s.results.get s.active ++ [⟨.ok, v, .none⟩]) := rfl
@[simp] theorem State.finishOk_cfg : (s.finishOk v).cfg = s.cfg := rfl
@[simp] theorem State.finishOk_inbox : (s.finishOk v).inbox = s.inbox := rfl
@[simp] theorem State.finishOk_sched : (s.finishOk v).sched = s.sched := rfl
@[simp] theorem State.finishOk_active : (s.finishOk v).active = s.active := rfl

end

section
variable (s : State) 

@[simp] theorem State.completeIllegal_hist : (s.completeIllegal).hist = s.hist := rfl
@[simp] theorem State.completeIllegal_level : (s.completeIllegal).level = s.level := rfl
@[simp] theorem State.completeIllegal_buf : (s.completeIllegal).buf = s.buf := rfl
@[simp] theorem State.completeIllegal_head : (s.completeIllegal).head = s.head := rfl
@[simp] theorem State.completeIllegal_tail : (s.completeIllegal).tail = s.tail := rfl
@[simp] theorem State.completeIllegal_count : (s.completeIllegal).count = s.count := rfl
@[simp] theorem State.completeIllegal_rdwait : (s.completeIllegal).rdwait = s.rdwait := rfl
@[simp] theorem State.completeIllegal_faults : (s.completeIllegal).faults = s.faults := rfl
@[simp] theorem State.completeIllegal_events : (s.completeIllegal).events = s.events := rfl
@[simp] theorem State.completeIllegal_results : (s.completeIllegal).results = s.results.set s.active (s.results.get s.active ++ [⟨.illegal, 0, .none⟩]) := rfl
@[simp] theorem State.completeIllegal_cfg : (s.completeIllegal).cfg = s.cfg := rfl
@[simp] theorem State.completeIllegal_inbox : (s.completeIllegal).inbox = s.inbox := rfl
@[simp] theorem State.completeIllegal_sched : (s.completeIllegal).sched = s.sched := rfl
@[simp] theorem State.completeIllegal_active : (s.completeIllegal).active = s.active := rfl

end

section
variable (s : State) 

@[simp] theorem State.completeBadLen_hist : (s.completeBadLen).hist = s.hist := rfl
@[simp] theorem State.completeBadLen_level : (s.completeBadLen).level = s.level := rfl
@[simp] theorem State.completeBadLen_buf : (s.completeBadLen).buf = s.buf := rfl
@[simp] theorem State.completeBadLen_head : (s.completeBadLen).head = s.head := rfl
@[simp] theorem State.completeBadLen_tail : (s.completeBadLen).tail = s.tail := rfl
@[simp] theorem State.completeBadLen_count : (s.completeBadLen).count = s.count := rfl
@[simp] theorem State.completeBadLen_rdwait : (s.completeBadLen).rdwait = s.rdwait := rfl
@[simp] theorem State.completeBadLen_faults : (s.completeBadLen).faults = s.faults := rfl
@[simp] theorem State.completeBadLen_events : (s.completeBadLen).events = s.events := rfl
@[simp] theorem State.completeBadLen_results : (s.completeBadLen).results = s.results.set s.active (s.results.get s.active ++ [⟨.badLen, 0, .none⟩]) := rfl
@[simp] theorem State.completeBadLen_cfg : (s.completeBadLen).cfg = s.cfg := rfl
@[simp] theorem State.completeBadLen_inbox : (s.completeBadLen).inbox = s.inbox := rfl
@[simp] theorem State.completeBadLen_sched : (s.completeBadLen).sched = s.sched := rfl
@[simp] theorem State.completeBadLen_active : (s.completeBadLen).active = s.active := rfl

end

section
variable (s : State) (v : F32)

@[simp] theorem State.setLevel_hist : (s.setLevel v).hist = s.hist := rfl
@[simp] theorem State.setLevel_level : (s.setLevel v).level = v := rfl
@[simp] theorem State.setLevel_buf : (s.setLevel v).buf = s.buf := rfl
@[simp] theorem State.setLevel_head : (s.setLevel v).head = s.head := rfl
@[simp] theorem State.setLevel_tail : (s.setLevel v).tail = s.tail := rfl
@[simp] theorem State.setLevel_count : (s.setLevel v).count = s.count := rfl
@[simp] theorem State.setLevel_rdwait : (s.setLevel v).rdwait = s.rdwait := rfl
@[simp] theorem State.setLevel_faults : (s.setLevel v).faults = s.faults := rfl
@[simp] theorem State.setLevel_events : (s.setLevel v).events = s.events ++ [.level v] := rfl
@[simp] theorem State.setLevel_results : (s.setLevel v).results = s.results := rfl
@[simp] theorem State.setLevel_cfg : (s.setLevel v).cfg = s.cfg := rfl
@[simp] theorem State.setLevel_inbox : (s.setLevel v).inbox = s.inbox := rfl
@[simp] theorem State.setLevel_sched : (s.setLevel v).sched = s.sched := rfl
@[simp] theorem State.setLevel_active : (s.setLevel v).active = s.active := rfl

end

section
variable (s : State) (n : Nat) (bs : List Byte)

@[simp] theorem State.push_hist : (s.push n bs).hist = s.hist := rfl
@[simp] theorem State.push_level : (s.push n bs).level = s.level := rfl
@[simp] theorem State.push_buf : (s.push n bs).buf = memWrite s.capacity s.head bs s.buf := rfl
@[simp] theorem State.push_head : (s.push n bs).head = (s.head + n) % s.capacity := rfl
@[simp] theorem State.push_tail : (s.push n bs).tail = s.tail := rfl
@[simp] theorem State.push_count : (s.push n bs).count = s.count + n := rfl
@[simp] theorem State.push_rdwait : (s.push n bs).rdwait = s.rdwait := rfl
@[simp] theorem State.push_faults : (s.push n bs).faults = s.faults := rfl
@[simp] theorem State.push_events : (s.push n bs).events = s.events ++ [.occ (s.count + n)] := rfl
@[simp] theorem State.push_results : (s.push n bs).results = s.results := rfl
@[simp] theorem State.push_cfg : (s.push n bs).cfg = s.cfg := rfl
@[simp] theorem State.push_inbox : (s.push n bs).inbox = s.inbox := rfl
@[simp] theorem State.push_sched : (s.push n bs).sched = s.sched := rfl
@[simp] theorem State.push_active : (s.push n bs).active = s.active := rfl

end

section
variable (s : State) (b n : Nat)

@[simp] theorem State.dropped_hist : (s.dropped b n).hist = s.hist := rfl
@[simp] theorem State.dropped_level : (s.dropped b n).level = s.level := rfl
@[simp] theorem State.dropped_buf : (s.dropped b n).buf = s.buf := rfl
@[simp] theorem State.dropped_head : (s.dropped b n).head = s.head := rfl
@[simp] theorem State.dropped_tail : (s.dropped b n).tail = s.tail := rfl
@[simp] theorem State.dropped_count : (s.dropped b n).count = s.count := rfl
@[simp] theorem State.dropped_rdwait : (s.dropped b n).rdwait = s.rdwait := rfl
@[simp] theorem State.dropped_faults : (s.dropped b n).faults = s.faults := rfl
@[simp] theorem State.dropped_events : (s.dropped b n).events = s.events ++ [.drop (zext32 b) (zext32 n)] := rfl
@[simp] theorem State.dropped_results : (s.dropped b n).results = s.results := rfl
@[simp] theorem State.dropped_cfg : (s.dropped b n).cfg = s.cfg := rfl
@[simp] theorem State.dropped_inbox : (s.dropped b n).inbox = s.inbox := rfl
@[simp] theorem State.dropped_sched : (s.dropped b n).sched = s.sched := rfl
@[simp] theorem State.dropped_active : (s.dropped b n).active = s.active := rfl

end

section
variable (s : State) (n : Nat)

@[simp] theorem State.pop_hist : (s.pop n).hist = s.hist := rfl
@[simp] theorem State.pop_level : (s.pop n).level = s.level := rfl
@[simp] theorem State.pop_buf : (s.pop n).buf = s.buf := rfl
@[simp] theorem State.pop_head : (s.pop n).head = s.head := rfl
@[simp] theorem State.pop_tail : (s.pop n).tail = (s.tail + n) % s.capacity := rfl
@[simp] theorem State.pop_count : (s.pop n).count = s.count - n := rfl
@[simp] theorem State.pop_rdwait : (s.pop n).rdwait = none := rfl
@[simp] theorem State.pop_faults : (s.pop n).faults = s.faults := rfl
@[simp] theorem State.pop_events : (s.pop n).events = s.events ++ [.occ (s.count - n)] := rfl
@[simp] theorem State.pop_results : (s.pop n).results = s.results := rfl
@[simp] theorem State.pop_cfg : (s.pop n).cfg = s.cfg := rfl
@[simp] theorem State.pop_inbox : (s.pop n).inbox = s.inbox := rfl
@[simp] theorem State.pop_sched : (s.pop n).sched = s.sched := rfl
@[simp] theorem State.pop_active : (s.pop n).active = s.active := rfl

end

section
variable (s : State) (p : Port) (c : Command)

@[simp] theorem State.issueNext_hist : (s.issueNext p c).hist = s.hist := rfl
@[simp] theorem State.issueNext_level : (s.issueNext p c).level = s.level := rfl
@[simp] theorem State.issueNext_buf : (s.issueNext p c).buf = s.buf := rfl
@[simp] theorem State.issueNext_head : (s.issueNext p c).head = s.head := rfl
@[simp] theorem State.issueNext_tail : (s.issueNext p c).tail = s.tail := rfl
@[simp] theorem State.issueNext_count : (s.issueNext p c).count = s.count := rfl
@[simp] theorem State.issueNext_rdwait : (s.issueNext p c).rdwait = if p = .consumer then none else s.rdwait := rfl
@[simp] theorem State.issueNext_faults : (s.issueNext p c).faults = s.faults := rfl
@[simp] theorem State.issueNext_events : (s.issueNext p c).events = s.events := rfl
@[simp] theorem State.issueNext_results : (s.issueNext p c).results = s.results := rfl
@[simp] theorem State.issueNext_cfg : (s.issueNext p c).cfg = s.cfg := rfl
@[simp] theorem State.issueNext_inbox : (s.issueNext p c).inbox = s.inbox.set p (c :: s.inbox.get p) := rfl
@[simp] theorem State.issueNext_sched : (s.issueNext p c).sched = p :: s.sched := rfl
@[simp] theorem State.issueNext_active : (s.issueNext p c).active = s.active := rfl

end

@[simp] theorem FaultSet.insert_has (fs : FaultSet) (f g : ModelFault) :
    (fs.insert f).has g = (fs.has g || decide (f = g)) := by
  cases f <;> cases g <;> simp [FaultSet.insert, FaultSet.has]

end Sys2Proof.Machine
end

