-- ==== Sys2Proof/Laws/Exec.lean ====
section
/-! SUPPORT. What the shared operations, a command and a step can do: one lemma each, which says all of it. -/

namespace Sys2Proof.Machine

/-- DROPPED: `n` bytes do not fit (60_exceptions R202). -/
theorem State.noRoom_iff {s : State} {n : Nat} : s.noRoom n = true ↔ s.capacity - s.count < n := by
  unfold State.noRoom
  exact decide_eq_true_iff

theorem State.noRoom_false_iff {s : State} {n : Nat} : s.noRoom n = false ↔ n ≤ s.capacity - s.count := by
  rw [← Bool.not_eq_true, State.noRoom_iff, Nat.not_lt]

/-- BAD_LEN: the length is odd or below `MIN_IN` (60_exceptions R204). -/
theorem badLength_iff {c : Config} {len : BitVec 24} :
    badLength c len = true ↔ len.toNat % 2 = 1 ∨ len.toNat < c.minIn := by
  simp only [badLength, Bool.or_eq_true, bne_iff_ne, ne_eq, decide_eq_true_eq]
  omega

theorem badLength_false_iff {c : Config} {len : BitVec 24} :
    badLength c len = false ↔ len.toNat % 2 = 0 ∧ c.minIn ≤ len.toNat := by
  rw [← Bool.not_eq_true, badLength_iff]
  omega

theorem onPorts_legal {ports : List Port} {s : State} (h : s.active ∈ ports) (body : Outcome) :
    onPorts ports s body = body := by
  simp [onPorts, h]

theorem onPorts_illegal {ports : List Port} {s : State} (h : s.active ∉ ports) (body : Outcome) :
    onPorts ports s body = .next s.completeIllegal := by
  simp [onPorts, h]

theorem State.answered_get (s : State) (r : Result) (p : Port) :
    (s.answered r).get p = if p = s.active then s.results.get p ++ [r] else s.results.get p := by
  unfold State.answered
  rw [PerPort.get_set]
  split <;> simp_all

/-- The read of `len` bytes has been done, from `s` to `t` (40_fifo R103). -/
def ReadDone (len : BitVec 24) (s t : State) : Prop :=
  len.toNat ≤ s.count ∧ ∃ bs, memRead s.capacity s.tail len.toNat s.buf = .ok bs ∧ t = { s with
    tail := (s.tail + len.toNat) % s.capacity
    count := s.count - len.toNat
    rdwait := none
    events := s.events ++ [.occ (s.count - len.toNat)]
    results := s.answered ⟨.ok, len.setWidth 32, .bytes bs⟩ }

theorem completeRead_next {len : BitVec 24} {s t : State} (h : completeRead len s = .next t) :
    ∃ bs, memRead s.capacity s.tail len.toNat s.buf = .ok bs ∧
      t = (s.pop len.toNat).finish ⟨.ok, len.setWidth 32, .bytes bs⟩ := by
  unfold completeRead at h
  split at h
  · cases h
  · rename_i bs hbs
    injection h with h
    exact ⟨bs, hbs, h.symm⟩

theorem completeRead_of_written {s : State} {n : Nat} (hn : n ≤ s.count) {len : BitVec 24} (hl : len.toNat = n)
    (hw : ∀ j < s.count, (Memory.read s.buf ((s.tail + j) % s.capacity)).isSome = true) :
    ∃ bs, memRead s.capacity s.tail len.toNat s.buf = .ok bs ∧
      completeRead len s = .next ((s.pop len.toNat).finish ⟨.ok, len.setWidth 32, .bytes bs⟩) := by
  obtain ⟨bs, hbs⟩ := memRead_total s.capacity len.toNat s.buf s.tail (fun j hj => hw j (by omega))
  exact ⟨bs, hbs, by simp [completeRead, hbs]⟩

/-- How the wait-end action ends (40_fifo R103, R104). -/
theorem endWait_next {len : BitVec 24} {s t : State} (h : endWait len s = .next t) :
    ReadDone len s t ∨
    (s.count < len.toNat ∧ t = { s with rdwait := none, results := s.answered ⟨.timeout, 0, .none⟩ }) := by
  unfold endWait at h
  split at h
  · exact .inl ⟨by assumption, completeRead_next h⟩
  · injection h with h
    exact .inr ⟨by omega, h.symm⟩

/-- What a command does on a port of its row, case by case, as record updates: a proof about every command needs no
unfolding of the meanings. -/
def Effect (s t : State) : Instr → Prop
  | .firReset =>
    t = { s with hist := List.replicate s.cfg.tapCount Sample.zero, results := s.answered ⟨.ok, 0, .none⟩ }
  | .firProcess len payload =>
    (badLength s.cfg len = true ∧ t = { s with results := s.answered ⟨.badLen, 0, .none⟩ }) ∨
    (badLength s.cfg len = false ∧ t = { s with
      hist := firHistory s.hist (samplesOf payload)
      results := s.answered ⟨.ok, peakPower s.cfg.nan (firOutputs s.cfg s.hist (samplesOf payload)),
        .words (wordsOf (firOutputs s.cfg s.hist (samplesOf payload)))⟩ })
  | .ltReset =>
    t = { s with
      level := s.cfg.levelInit
      events := s.events ++ [.level s.cfg.levelInit]
      results := s.answered ⟨.ok, s.cfg.levelInit, .none⟩ }
  | .ltUpdate p =>
    t = { s with
      level := ltStep s.cfg s.level p
      events := s.events ++ [.level (ltStep s.cfg s.level p)]
      faults := if outOfContract p then s.faults.insert .ltContract else s.faults
      results := s.answered ⟨.ok, ltStep s.cfg s.level p, .none⟩ }
  | .ltRead => t = { s with results := s.answered ⟨.ok, s.level, .none⟩ }
  | .fifoReset =>
    t = { s with
      head := 0
      tail := 0
      count := 0
      faults := if s.rdwait = none then s.faults else s.faults.insert .resetRace
      events := if s.count = 0 then s.events else s.events ++ [.occ 0]
      results := s.answered ⟨.ok, 0, .none⟩ }
  | .fifoWrite len bs =>
    (len = 0 ∧ t = { s with results := s.answered ⟨.ok, 0, .none⟩ }) ∨
    (len ≠ 0 ∧ s.free < len.toNat ∧ t = { s with
      events := s.events ++ [.drop (zext32 len.toNat) (zext32 (len.toNat / 8))]
      results := s.answered ⟨.dropped, 0, .none⟩ }) ∨
    (len ≠ 0 ∧ len.toNat ≤ s.free ∧ t = { s with
      buf := memWrite s.capacity s.head bs s.buf
      head := (s.head + len.toNat) % s.capacity
      count := s.count + len.toNat
      events := s.events ++ [.occ (s.count + len.toNat)]
      results := s.answered ⟨.ok, len.setWidth 32, .none⟩ })
  | .fifoRead len =>
    (len = 0 ∧ t = { s with results := s.answered ⟨.ok, 0, .bytes []⟩ }) ∨
    (len ≠ 0 ∧ ReadDone len s t) ∨
    (s.count < len.toNat ∧ t = { s with rdwait := some len })
  | .fifoAvailRd => t = { s with results := s.answered ⟨.ok, zext32 s.count, .none⟩ }
  | .fifoAvailWr => t = { s with results := s.answered ⟨.ok, zext32 s.free, .none⟩ }
  | .pipeProcess len payload =>
    (badLength s.cfg len = true ∧ t = { s with results := s.answered ⟨.badLen, 0, .none⟩ }) ∨
    (badLength s.cfg len = false ∧ ∃ ys l, ys = firOutputs s.cfg s.hist (samplesOf payload) ∧
      l = ltStep s.cfg s.level (peakPower s.cfg.nan ys) ∧
      ((s.free < 8 * (len.toNat / 2) ∧ t = { s with
          hist := firHistory s.hist (samplesOf payload)
          level := l
          events := s.events ++ [.level l, .drop (zext32 (8 * (len.toNat / 2))) (zext32 (len.toNat / 2))]
          results := s.answered ⟨.dropped, l, .none⟩ }) ∨
        (8 * (len.toNat / 2) ≤ s.free ∧ t = { s with
          hist := firHistory s.hist (samplesOf payload)
          level := l
          buf := memWrite s.capacity s.head (ser ys) s.buf
          head := (s.head + 8 * (len.toNat / 2)) % s.capacity
          count := s.count + 8 * (len.toNat / 2)
          events := s.events ++ [.level l, .occ (s.count + 8 * (len.toNat / 2))]
          results := s.answered ⟨.ok, l, .none⟩ })))

/-- Everything a command can do: on a port that its row does not list it ends ILLEGAL, and else it has its effect. -/
theorem exec_next {i : Instr} {s t : State} (h : exec i s = .next t) :
    (s.active ∉ i.opcode.ports ∧ t = s.completeIllegal) ∨ (s.active ∈ i.opcode.ports ∧ Effect s t i) := by
  by_cases hp : s.active ∈ i.opcode.ports
  · refine .inr ⟨hp, ?_⟩
    cases i <;>
      simp only [exec, execFirReset, execFirProcess, execLtReset, execLtUpdate, execLtRead, execFifoReset,
        execFifoWrite, execFifoRead, execFifoAvailRd, execFifoAvailWr, execPipeProcess, Instr.opcode] at h hp <;>
      rw [onPorts_legal hp] at h
    case fifoRead len =>
      simp only [Effect]
      split at h
      · injection h with h
        exact .inl ⟨by assumption, h.symm⟩
      · split at h
        · exact .inr (.inl ⟨by assumption, by assumption, completeRead_next h⟩)
        · injection h with h
          exact .inr (.inr ⟨by omega, h.symm⟩)
    all_goals
      injection h with h
      subst h
    case firProcess len payload =>
      unfold firProcess
      by_cases hb : badLength s.cfg len = true
      · exact .inl ⟨hb, if_pos hb⟩
      · exact .inr ⟨by simpa using hb, if_neg hb⟩
    case ltUpdate p =>
      unfold ltUpdate
      by_cases hb : outOfContract p = true <;> simp only [Effect, hb] <;> rfl
    case fifoReset =>
      unfold fifoReset
      by_cases hr : s.rdwait = none <;> by_cases hc : s.count = 0 <;> simp only [Effect, hr, hc, if_true, if_false] <;>
        rfl
    case fifoWrite len bs =>
      unfold fifoWrite
      by_cases h0 : len = 0
      · exact .inl ⟨h0, if_pos h0⟩
      · rw [if_neg h0]
        by_cases hn : s.free < len.toNat
        · exact .inr (.inl ⟨h0, hn, if_pos (by simpa [State.noRoom] using hn)⟩)
        · exact .inr (.inr ⟨h0, by omega, if_neg (by simpa [State.noRoom] using hn)⟩)
    case pipeProcess len payload =>
      unfold pipeProcess pipeAccepted
      by_cases hb : badLength s.cfg len = true
      · exact .inl ⟨hb, if_pos hb⟩
      · refine .inr ⟨by simpa using hb, _, _, rfl, rfl, ?_⟩
        rw [if_neg hb]
        by_cases hn : s.free < 8 * (len.toNat / 2)
        · refine .inl ⟨hn, ?_⟩
          rw [if_pos (by simpa [State.noRoom] using hn)]
          simp [State.dropped, State.setLevel, State.emit, State.finish, State.answered]
        · refine .inr ⟨by omega, ?_⟩
          rw [if_neg (by simpa [State.noRoom] using hn)]
          simp [State.push, State.setLevel, State.emit, State.finishOk, State.finish, State.answered, State.capacity]
    all_goals rfl
  · refine .inl ⟨hp, ?_⟩
    cases i <;>
      simp only [exec, execFirReset, execFirProcess, execLtReset, execLtUpdate, execLtRead, execFifoReset,
        execFifoWrite, execFifoRead, execFifoAvailRd, execFifoAvailWr, execPipeProcess, Instr.opcode] at h hp <;>
      rw [onPorts_illegal hp] at h <;>
      injection h with h <;> exact h.symm

/-- Every command but a read on the consumer port answers a next state, whatever the state. -/
theorem exec_answers {i : Instr} {s : State} (h : (∀ len, i ≠ .fifoRead len) ∨ s.active ≠ .consumer) :
    ∃ t, exec i s = .next t := by
  by_cases hp : s.active ∈ i.opcode.ports
  · cases i
    case fifoRead len =>
      simp only [Instr.opcode, Opcode.ports, List.mem_singleton] at hp
      rcases h with h | h
      · exact absurd rfl (h len)
      · exact absurd hp h
    all_goals exact ⟨_, onPorts_legal hp _⟩
  · cases i <;> exact ⟨_, onPorts_illegal hp _⟩

/-- A read on the consumer port answers a next state where the valid cells are written. -/
theorem execFifoRead_answers {len : BitVec 24} {s : State}
    (hw : ∀ j < s.count, (Memory.read s.buf ((s.tail + j) % s.capacity)).isSome = true) :
    ∃ t, exec (.fifoRead len) s = .next t := by
  by_cases hp : s.active ∈ Opcode.fifoRead.ports
  · simp only [exec, execFifoRead]
    rw [onPorts_legal hp]
    split
    · exact ⟨_, rfl⟩
    · split
      · rename_i h
        obtain ⟨bs, _, h⟩ := completeRead_of_written h rfl hw
        exact ⟨_, h⟩
      · exact ⟨_, rfl⟩
  · exact ⟨_, onPorts_illegal hp _⟩

/-- A turn in which the port may take a command. -/
theorem takeTurn_takes {p : Port} {s : State} (hp : p = .consumer → s.rdwait = none) :
    takeTurn p s = takeCommand { s with active := p } := by
  cases p with
  | consumer => simp [takeTurn, hp rfl]
  | producer => rfl
  | control => rfl

/-- Everything a step can do when it answers a next state. -/
theorem step_next {s t : State} (h : step s = .next t) :
    (s.sched = [] ∧ s.rdwait = none ∧ t = s) ∨
    (∃ len, (s.sched = [] ∨ ∃ ps, s.sched = .consumer :: ps) ∧ s.rdwait = some len ∧
      endWait len { s with sched := s.sched.tail, active := .consumer } = .next t) ∨
    (∃ p ps, s.sched = p :: ps ∧ (p = .consumer → s.rdwait = none) ∧ s.inbox.get p = [] ∧
      t = { s with sched := ps, active := p }) ∨
    (∃ p ps c cs, s.sched = p :: ps ∧ (p = .consumer → s.rdwait = none) ∧ s.inbox.get p = c :: cs ∧
      ((∃ i, decode c = .ok i ∧
          exec i { s with sched := ps, active := p, inbox := s.inbox.set p cs } = .next t) ∨
       (∃ r, decode c = .error r ∧ r ≠ .payloadMismatch ∧
          t = State.completeIllegal { s with sched := ps, active := p, inbox := s.inbox.set p cs }))) := by
  unfold step at h
  split at h
  · rename_i hs
    unfold quiesce at h
    split at h
    · rename_i len hr
      exact .inr (.inl ⟨len, .inl hs, hr, by simpa [hs] using h⟩)
    · rename_i hr
      injection h with h
      exact .inl ⟨hs, hr, h.symm⟩
  · rename_i p ps hs
    by_cases hp : p = .consumer → s.rdwait = none
    · rw [takeTurn_takes (s := { s with sched := ps }) hp] at h
      unfold takeCommand at h
      split at h
      · rename_i hi
        injection h with h
        exact .inr (.inr (.inl ⟨p, ps, hs, hp, hi, h.symm⟩))
      · rename_i c cs hi
        refine .inr (.inr (.inr ⟨p, ps, c, cs, hs, hp, hi, ?_⟩))
        unfold runCommand at h
        split at h
        · rename_i i hd
          exact .inl ⟨i, hd, h⟩
        · cases h
        · rename_i hd
          injection h with h
          exact .inr ⟨_, hd, by simp, h.symm⟩
        · rename_i hd
          injection h with h
          exact .inr ⟨_, hd, by simp, h.symm⟩
    · simp only [Classical.not_imp] at hp
      obtain ⟨rfl, hr⟩ := hp
      obtain ⟨len, hr⟩ := Option.ne_none_iff_exists'.mp hr
      refine .inr (.inl ⟨len, .inr ⟨ps, hs⟩, hr, ?_⟩)
      simpa [takeTurn, hr, hs] using h

/-- The step where a port takes a command. -/
theorem step_takes {s : State} {p : Port} {ps : List Port} {c : Command} {cs : List Command}
    (hs : s.sched = p :: ps) (hp : p = .consumer → s.rdwait = none) (hi : s.inbox.get p = c :: cs) :
    step s = runCommand c { s with sched := ps, active := p, inbox := s.inbox.set p cs } := by
  unfold step
  rw [hs]
  have key := takeTurn_takes (s := { s with sched := ps }) hp
  simp [key, takeCommand, hi]

end Sys2Proof.Machine
end

