-- ==== Sys2Proof/Laws/Float.lean ====
section
/-! SUPPORT. The laws of the binary32 arithmetic: fields of an encoding, order of encodings and magnitudes, and that
rounding keeps order and exact values. -/

namespace Sys2Proof

theorem fpExp_eq (w : F32) : fpExp w = w.toNat / 2 ^ 23 % 2 ^ 8 := by
  simp [fpExp, BitVec.extractLsb'_toNat, Nat.shiftRight_eq_div_pow]

theorem fpFrac_eq (w : F32) : fpFrac w = w.toNat % 2 ^ 23 := by
  simp [fpFrac, BitVec.extractLsb'_toNat]

theorem fpSign_eq (w : F32) : fpSign w = decide (2 ^ 31 ≤ w.toNat) := by
  have h : fpSign w = w.msb := by simp [fpSign, BitVec.msb_eq_getLsbD_last]
  rw [h, BitVec.msb_eq_decide]

/-- The encoding bits of an `fpPack`. -/
theorem fpPack_toNat (s : Bool) {m : Nat} (hm : m < 2 ^ 31) :
    (fpPack s m).toNat = m + if s then 2 ^ 31 else 0 := by
  simp only [fpPack, BitVec.toNat_ofNat]
  apply Nat.mod_eq_of_lt
  split <;> omega

@[simp] theorem fpSign_pack (s : Bool) {m : Nat} (hm : m < 2 ^ 31) : fpSign (fpPack s m) = s := by
  rw [fpSign_eq, fpPack_toNat s hm]
  cases s
  · simpa using hm
  · simp

/-- The magnitude, in units of 2^-149, of the encoding with the 31 low bits `m`. -/
def fpMagBits (m : Nat) : Nat :=
  if m / 2 ^ 23 = 0 then m else (2 ^ 23 + m % 2 ^ 23) * 2 ^ (m / 2 ^ 23 - 1)

theorem fpMag_pack (s : Bool) {m : Nat} (hm : m < 2 ^ 31) : fpMag (fpPack s m) = fpMagBits m := by
  have he : fpExp (fpPack s m) = m / 2 ^ 23 := by
    rw [fpExp_eq, fpPack_toNat s hm]; cases s <;> (simp; omega)
  have hf : fpFrac (fpPack s m) = m % 2 ^ 23 := by
    rw [fpFrac_eq, fpPack_toNat s hm]; split <;> omega
  unfold fpMag fpMagBits
  rw [he, hf]
  split <;> rename_i h
  · omega
  · rfl

/-- Every encoding is an `fpPack` of its sign and its 31 low bits. -/
theorem fpPack_self (w : F32) : fpPack (fpSign w) (w.toNat % 2 ^ 31) = w := by
  apply BitVec.eq_of_toNat_eq
  rw [fpPack_toNat _ (Nat.mod_lt _ (by decide)), fpSign_eq]
  have := w.isLt
  by_cases h : 2 ^ 31 ≤ w.toNat
  · rw [decide_eq_true h, if_pos rfl]; omega
  · rw [decide_eq_false h, if_neg (by simp)]; omega

theorem fpMag_eq (w : F32) : fpMag w = fpMagBits (w.toNat % 2 ^ 31) := by
  conv_lhs => rw [← fpPack_self w]
  exact fpMag_pack _ (Nat.mod_lt _ (by decide))

/-- A finite encoding's low bits. -/
theorem fpIsFinite_iff (w : F32) : fpIsFinite w = true ↔ w.toNat % 2 ^ 31 < 0x7F800000 := by
  unfold fpIsFinite
  rw [fpExp_eq]
  have := w.isLt
  simp only [bne_iff_ne, ne_eq]
  omega

theorem fpIsNaN_iff (w : F32) : fpIsNaN w = true ↔ 0x7F800000 < w.toNat % 2 ^ 31 := by
  unfold fpIsNaN
  rw [fpExp_eq, fpFrac_eq]
  have := w.isLt
  simp only [Bool.and_eq_true, beq_iff_eq, bne_iff_ne, ne_eq]
  omega

theorem fpIsInf_iff (w : F32) : fpIsInf w = true ↔ w.toNat % 2 ^ 31 = 0x7F800000 := by
  unfold fpIsInf
  rw [fpExp_eq, fpFrac_eq]
  have := w.isLt
  simp only [Bool.and_eq_true, beq_iff_eq]
  omega

theorem fpIsZero_iff (w : F32) : fpIsZero w = true ↔ w.toNat % 2 ^ 31 = 0 := by
  unfold fpIsZero
  rw [fpExp_eq, fpFrac_eq]
  have := w.isLt
  simp only [Bool.and_eq_true, beq_iff_eq]
  omega

theorem pack_mod (s : Bool) {m : Nat} (hm : m < 2 ^ 31) : (fpPack s m).toNat % 2 ^ 31 = m := by
  rw [fpPack_toNat s hm]; cases s <;> simp <;> omega

theorem fpMagBits_lt_succ (m : Nat) : fpMagBits m < fpMagBits (m + 1) := by
  unfold fpMagBits
  by_cases h0 : m / 2 ^ 23 = 0
  · by_cases h1 : (m + 1) / 2 ^ 23 = 0
    · rw [if_pos h0, if_pos h1]; omega
    · rw [if_pos h0, if_neg h1]
      have : (m + 1) / 2 ^ 23 = 1 := by omega
      rw [this]; omega
  · have h1 : (m + 1) / 2 ^ 23 ≠ 0 := by omega
    rw [if_neg h0, if_neg h1]
    by_cases h2 : (m + 1) / 2 ^ 23 = m / 2 ^ 23
    · rw [h2]
      apply Nat.mul_lt_mul_of_pos_right _ (Nat.two_pow_pos _)
      omega
    · have h3 : (m + 1) / 2 ^ 23 = m / 2 ^ 23 + 1 := by omega
      have h4 : 2 ^ (m / 2 ^ 23 + 1 - 1) = 2 * 2 ^ (m / 2 ^ 23 - 1) := by
        rw [← Nat.pow_succ']; congr 1; omega
      rw [h3, h4, ← Nat.mul_assoc]
      apply Nat.mul_lt_mul_of_pos_right _ (Nat.two_pow_pos _)
      omega

/-- A greater encoding is a greater magnitude. -/
theorem fpMagBits_strictMono : StrictMono fpMagBits := strictMono_nat_of_lt_succ fpMagBits_lt_succ

theorem fpNearest_mono {n n' : Nat} (q : Nat) (h : n ≤ n') : fpNearest n q ≤ fpNearest n' q := by
  have hp := Nat.two_pow_pos q
  have h1 := Nat.div_add_mod n (2 ^ q)
  have h2 := Nat.div_add_mod n' (2 ^ q)
  have h3 := Nat.mod_lt n hp
  have h4 := Nat.mod_lt n' hp
  have hd : n / 2 ^ q ≤ n' / 2 ^ q := Nat.div_le_div_right h
  unfold fpNearest
  rcases Nat.lt_or_eq_of_le hd with hd | hd
  · split <;> split <;> omega
  · rw [← hd] at h2 ⊢
    have : n % 2 ^ q ≤ n' % 2 ^ q := by omega
    split <;> split <;> omega

theorem fpNearest_lower (n q : Nat) : n / 2 ^ q ≤ fpNearest n q := by
  unfold fpNearest
  split <;> omega

theorem fpNearest_upper (n q : Nat) : fpNearest n q ≤ n / 2 ^ q + 1 := by
  unfold fpNearest
  split <;> omega

/-- Rounding keeps order. -/
theorem fpRound_mono {n n' : Nat} (sh : Nat) (h : n ≤ n') : fpRound n sh ≤ fpRound n' sh := by
  unfold fpRound
  apply min_le_min_right
  by_cases hq : fpDrop n sh = fpDrop n' sh
  · rw [hq]
    exact Nat.add_le_add_left (fpNearest_mono _ h) _
  · have hlog : n.log2 ≤ n'.log2 := by
      by_cases hn : n = 0
      · subst hn; simp
      · rw [Nat.log2_eq_log_two, Nat.log2_eq_log_two]; exact Nat.log_mono_right h
    have hle : fpDrop n sh < fpDrop n' sh := by unfold fpDrop at *; omega
    have h1 : n / 2 ^ fpDrop n sh < 2 ^ 24 := by
      rw [Nat.div_lt_iff_lt_mul (Nat.two_pow_pos _), ← Nat.pow_add]
      refine lt_of_lt_of_le (Nat.lt_log2_self) (Nat.pow_le_pow_right (by decide) ?_)
      unfold fpDrop; omega
    have h2 : 2 ^ 23 ≤ n' / 2 ^ fpDrop n' sh := by
      have hd : fpDrop n' sh = n'.log2 - 23 := by unfold fpDrop at *; omega
      have hn' : n' ≠ 0 := by
        rintro rfl
        unfold fpDrop at hle; simp at hle
      rw [Nat.le_div_iff_mul_le (Nat.two_pow_pos _), ← Nat.pow_add, hd]
      refine le_trans (Nat.pow_le_pow_right (by decide) ?_) (Nat.log2_self_le hn')
      unfold fpDrop at *; omega
    have h3 := fpNearest_upper n (fpDrop n sh)
    have h4 := fpNearest_lower n' (fpDrop n' sh)
    have h5 : sh ≤ fpDrop n sh := by unfold fpDrop; omega
    have h6 : (fpDrop n' sh - sh) * 2 ^ 23 ≥ (fpDrop n sh - sh + 1) * 2 ^ 23 := Nat.mul_le_mul_right _ (by omega)
    omega

/-- Rounding an exact value keeps it. -/
theorem fpRound_exact {m : Nat} (hm : m ≤ 0x7F800000) (sh : Nat) : fpRound (fpMagBits m * 2 ^ sh) sh = m := by
  have key : (fpDrop (fpMagBits m * 2 ^ sh) sh - sh) * 2 ^ 23
      + fpNearest (fpMagBits m * 2 ^ sh) (fpDrop (fpMagBits m * 2 ^ sh) sh) = m := by
    by_cases h0 : m / 2 ^ 23 = 0
    · have hmag : fpMagBits m = m := if_pos h0
      rw [hmag]
      have hd : fpDrop (m * 2 ^ sh) sh = sh := by
        unfold fpDrop
        by_cases hm0 : m = 0
        · simp [hm0]
        · have : (m * 2 ^ sh).log2 < 23 + sh := by
            rw [Nat.log2_lt (by positivity), Nat.pow_add]
            exact Nat.mul_lt_mul_of_pos_right (by omega) (Nat.two_pow_pos _)
          omega
      rw [hd]
      simp [fpNearest]
    · have hmag : fpMagBits m = (2 ^ 23 + m % 2 ^ 23) * 2 ^ (m / 2 ^ 23 - 1) := if_neg h0
      generalize he : m / 2 ^ 23 = e at *
      generalize hf : m % 2 ^ 23 = f at *
      have hfl : f < 2 ^ 23 := hf ▸ Nat.mod_lt _ (by decide)
      have hpow : fpMagBits m * 2 ^ sh = (2 ^ 23 + f) * 2 ^ (e - 1 + sh) := by
        rw [hmag, Nat.mul_assoc, ← Nat.pow_add]
      have hlog : (fpMagBits m * 2 ^ sh).log2 = 23 + (e - 1 + sh) := by
        rw [hpow, Nat.log2_eq_iff (by positivity)]
        constructor
        · rw [Nat.pow_add]; exact Nat.mul_le_mul_right _ (by omega)
        · rw [show 23 + (e - 1 + sh) + 1 = 24 + (e - 1 + sh) by omega, Nat.pow_add 2 24]
          exact Nat.mul_lt_mul_of_pos_right (by omega) (Nat.two_pow_pos _)
      have hd : fpDrop (fpMagBits m * 2 ^ sh) sh = e - 1 + sh := by unfold fpDrop; omega
      rw [hd, hpow]
      have hn : fpNearest ((2 ^ 23 + f) * 2 ^ (e - 1 + sh)) (e - 1 + sh) = 2 ^ 23 + f := by
        have := Nat.two_pow_pos (e - 1 + sh)
        simp [fpNearest]
      rw [hn]
      omega
  unfold fpRound
  omega

theorem fpRound_le (n sh : Nat) : fpRound n sh ≤ 0x7F800000 := by unfold fpRound; omega

theorem fpRound_lt (n sh : Nat) : fpRound n sh < 2 ^ 31 := lt_of_le_of_lt (fpRound_le n sh) (by decide)

@[simp] theorem fpRound_zero (sh : Nat) : fpRound 0 sh = 0 := by
  simpa [fpMagBits] using fpRound_exact (m := 0) (by decide) sh

/-- A rounded magnitude lies on the same side of every binary32 magnitude as the exact one. -/
theorem fpRound_le_of_le {n sh m : Nat} (hm : m ≤ 0x7F800000) (h : n ≤ fpMagBits m * 2 ^ sh) : fpRound n sh ≤ m :=
  fpRound_exact hm sh ▸ fpRound_mono sh h

theorem le_fpRound_of_le {n sh m : Nat} (hm : m ≤ 0x7F800000) (h : fpMagBits m * 2 ^ sh ≤ n) : m ≤ fpRound n sh :=
  fpRound_exact hm sh ▸ fpRound_mono sh h

theorem fpMakeNaN_isNaN (s : Bool) (f : BitVec 23) : fpIsNaN (fpMakeNaN s f) = true := by
  have hf := f.isLt
  have h : (0x7F800000 + if f = 0 then 1 else f.toNat) < 2 ^ 31 := by split <;> omega
  rw [fpIsNaN_iff, fpMakeNaN, pack_mod s h]
  split
  · omega
  · rename_i hne
    have : f.toNat ≠ 0 := fun h0 => hne (BitVec.eq_of_toNat_eq (by simpa using h0))
    omega

/-- The NaN that an operation gives is a NaN. -/
@[simp] theorem fpNaN_isNaN (r : NanRule) (op : FpOp) (a b : F32) : fpIsNaN (fpNaN r op a b) = true := by
  cases r <;> exact fpMakeNaN_isNaN _ _

theorem not_nan_of_finite {w : F32} (h : fpIsFinite w = true) : fpIsNaN w = false := by
  rw [fpIsFinite_iff] at h
  rw [Bool.eq_false_iff, ne_eq, fpIsNaN_iff]
  omega

theorem not_inf_of_finite {w : F32} (h : fpIsFinite w = true) : fpIsInf w = false := by
  rw [fpIsFinite_iff] at h
  rw [Bool.eq_false_iff, ne_eq, fpIsInf_iff]
  omega

/-- The sum of finite values: exactly 0, or rounded. -/
theorem fpSum_finite (r : NanRule) (op : FpOp) {a b : F32} (ha : fpIsFinite a = true) (hb : fpIsFinite b = true) :
    fpSum r op a b = if fpVal a + fpVal b = 0 then fpPack (fpSign a && fpSign b) 0
      else fpPack (decide (fpVal a + fpVal b < 0)) (fpRound (fpVal a + fpVal b).natAbs 0) := by
  simp [fpSum, not_nan_of_finite ha, not_nan_of_finite hb, not_inf_of_finite ha, not_inf_of_finite hb]

/-- The product of finite values, rounded. -/
theorem fpMul_finite (r : NanRule) {a b : F32} (ha : fpIsFinite a = true) (hb : fpIsFinite b = true) :
    fpMul r a b = fpPack (fpSign a != fpSign b) (fpRound (fpMag a * fpMag b) 149) := by
  simp [fpMul, not_nan_of_finite ha, not_nan_of_finite hb, not_inf_of_finite ha, not_inf_of_finite hb]

theorem fpVal_pack (s : Bool) {m : Nat} (hm : m < 2 ^ 31) :
    fpVal (fpPack s m) = if s then -(fpMagBits m : Int) else fpMagBits m := by
  rw [fpVal, fpSign_pack s hm, fpMag_pack s hm]

theorem fpVal_natAbs (w : F32) : (fpVal w).natAbs = fpMag w := by
  unfold fpVal; split <;> simp

theorem fpSign_neg (w : F32) : fpSign (fpNeg w) = !fpSign w := by
  simp [fpSign, fpNeg]

theorem fpNeg_mod (w : F32) : (fpNeg w).toNat % 2 ^ 31 = w.toNat % 2 ^ 31 := by
  have h : (fpNeg w).extractLsb' 0 31 = w.extractLsb' 0 31 := by
    refine BitVec.eq_of_getLsbD_eq fun i hi => ?_
    simp only [fpNeg, BitVec.getLsbD_extractLsb', BitVec.getLsbD_xor]
    have : (0x80000000#32).getLsbD (0 + i) = false := by
      interval_cases i <;> rfl
    rw [Nat.zero_add] at this ⊢
    rw [this, Bool.xor_false]
  have := congrArg BitVec.toNat h
  simpa [BitVec.extractLsb'_toNat] using this

theorem fpVal_neg (w : F32) : fpVal (fpNeg w) = -fpVal w := by
  rw [fpVal, fpVal, fpSign_neg, fpMag_eq, fpMag_eq, fpNeg_mod]
  cases fpSign w <;> simp

theorem fpIsFinite_neg (w : F32) : fpIsFinite (fpNeg w) = fpIsFinite w := by
  rw [Bool.eq_iff_iff, fpIsFinite_iff, fpIsFinite_iff, fpNeg_mod]

theorem fpIsNaN_neg (w : F32) : fpIsNaN (fpNeg w) = fpIsNaN w := by
  rw [Bool.eq_iff_iff, fpIsNaN_iff, fpIsNaN_iff, fpNeg_mod]

/-- A sum whose exact value is a binary32 value has that value. -/
theorem fpSum_of_value (r : NanRule) (op : FpOp) {a b w : F32} (ha : fpIsFinite a = true) (hb : fpIsFinite b = true)
    (hw : fpIsFinite w = true) (h : fpVal w = fpVal a + fpVal b) :
    fpIsFinite (fpSum r op a b) = true ∧ fpVal (fpSum r op a b) = fpVal a + fpVal b := by
  rw [fpSum_finite r op ha hb]
  split
  · rename_i h0
    refine ⟨?_, ?_⟩
    · rw [fpIsFinite_iff, pack_mod _ (by decide)]; decide
    · rw [h0, fpVal_pack _ (by decide)]; simp [fpMagBits]
  · rename_i h0
    have hm : w.toNat % 2 ^ 31 < 0x7F800000 := (fpIsFinite_iff w).mp hw
    have hr : fpRound (fpVal a + fpVal b).natAbs 0 = w.toNat % 2 ^ 31 := by
      rw [← h, fpVal_natAbs, fpMag_eq]
      simpa using fpRound_exact hm.le 0
    rw [hr]
    refine ⟨?_, ?_⟩
    · rw [fpIsFinite_iff, pack_mod _ (by omega)]; exact hm
    · rw [fpVal_pack _ (by omega), ← fpMag_eq, ← fpVal_natAbs, ← h]
      split <;> rename_i hs <;> simp only [decide_eq_true_eq] at hs <;> omega

/-- A product whose exact value is a binary32 value has that value. -/
theorem fpMul_of_value (r : NanRule) {a b w : F32} (ha : fpIsFinite a = true) (hb : fpIsFinite b = true)
    (hw : fpIsFinite w = true) (h : fpVal w * 2 ^ 149 = fpVal a * fpVal b) :
    fpIsFinite (fpMul r a b) = true ∧ fpVal (fpMul r a b) * 2 ^ 149 = fpVal a * fpVal b := by
  have hm : w.toNat % 2 ^ 31 < 0x7F800000 := (fpIsFinite_iff w).mp hw
  have hn : fpMag w * 2 ^ 149 = fpMag a * fpMag b := by
    have := congrArg Int.natAbs h
    simpa only [Int.natAbs_mul, fpVal_natAbs, Int.natAbs_pow, show (2 : Int).natAbs = 2 from rfl] using this
  rw [fpMul_finite r ha hb, ← hn, fpMag_eq, fpRound_exact hm.le]
  refine ⟨?_, ?_⟩
  · rw [fpIsFinite_iff, pack_mod _ (by omega)]; exact hm
  · rw [fpVal_pack _ (by omega), ← fpMag_eq]
    have hz : (fpMag w : Int) * 2 ^ 149 = fpMag a * fpMag b := by exact_mod_cast hn
    unfold fpVal
    cases fpSign a <;> cases fpSign b <;> simp <;> linarith

end Sys2Proof
end

