-- ==== Sys2Proof/Laws/Fir.lean ====
section
/-! SUPPORT. The laws of the FIR unit: the history, the outputs of a block, serialization and the peak. -/

namespace Sys2Proof.Machine

@[simp] theorem shiftIn_length (x : Sample) (hist : List Sample) : (shiftIn x hist).length = hist.length := by
  simp [shiftIn]

@[simp] theorem firHistory_nil (hist : List Sample) : firHistory hist [] = hist := rfl

@[simp] theorem firHistory_cons (hist : List Sample) (x : Sample) (xs : List Sample) :
    firHistory hist (x :: xs) = firHistory (shiftIn x hist) xs := rfl

@[simp] theorem firHistory_length (xs : List Sample) : ∀ hist : List Sample,
    (firHistory hist xs).length = hist.length := by
  induction xs with
  | nil => intro hist; rfl
  | cons x xs ih => intro hist; simp [ih]

theorem firHistory_append (hist xs ys : List Sample) :
    firHistory hist (xs ++ ys) = firHistory (firHistory hist xs) ys := by
  simp [firHistory]

/-- The history after a block is the newest `T` of all the samples taken, newest first (10_state R23). -/
theorem firHistory_eq (xs : List Sample) : ∀ hist : List Sample,
    firHistory hist xs = (xs.reverse ++ hist).take hist.length := by
  induction xs with
  | nil => intro hist; simp
  | cons x xs ih =>
    intro hist
    rw [firHistory_cons, ih, shiftIn_length, shiftIn, List.reverse_cons, List.append_assoc, List.singleton_append,
      List.take_append, List.take_append, List.take_take]
    congr 2
    omega

/-- A block of an even number of samples gives half as many outputs (41_filter R141). -/
theorem firOutputs_length (c : Config) : ∀ (xs hist : List Sample),
    (firOutputs c hist xs).length = xs.length / 2
  | [], _ => rfl
  | [_], _ => by simp [firOutputs]
  | _ :: _ :: xs, hist => by
    simp only [firOutputs, List.length_cons, firOutputs_length c xs]
    omega

theorem firOutputs_append (c : Config) (ys : List Sample) : ∀ (xs hist : List Sample), xs.length % 2 = 0 →
    firOutputs c hist (xs ++ ys) = firOutputs c hist xs ++ firOutputs c (firHistory hist xs) ys
  | [], _, _ => rfl
  | [_], _, h => by simp at h
  | x :: x' :: xs, hist, h => by
    have h' : xs.length % 2 = 0 := by simp only [List.length_cons] at h; omega
    simp [firOutputs, firOutputs_append c ys xs _ h']

/-- Output `n` of a block is `ARITH.fir` of the history after input sample `2n+1` (41_filter R133). -/
theorem firOutputs_get (c : Config) : ∀ (xs hist : List Sample) (n : Nat), 2 * n + 1 < xs.length →
    (firOutputs c hist xs)[n]? = some (firOut c (firHistory hist (xs.take (2 * n + 2))))
  | [], _, _, h => by simp at h
  | [_], _, _, h => by simp at h
  | x :: x' :: xs, hist, 0, _ => by simp [firOutputs]
  | x :: x' :: xs, hist, n + 1, h => by
    have h' : 2 * n + 1 < xs.length := by simp only [List.length_cons] at h; omega
    simp [firOutputs, firOutputs_get c xs _ n h', show 2 * (n + 1) + 2 = 2 * n + 2 + 1 + 1 by omega]

/-- Payload words read as samples give the samples they were made of (30_encoding R82). -/
@[simp] theorem samplesOf_flatMap (xs : List Sample) : samplesOf (xs.flatMap fun x => [x.i, x.q]) = xs := by
  induction xs with
  | nil => rfl
  | cons x xs ih => simp [samplesOf, ih]

theorem samplesOf_length : ∀ ws : List F32, (samplesOf ws).length = ws.length / 2
  | [] => rfl
  | [_] => by simp [samplesOf]
  | _ :: _ :: ws => by
    simp only [samplesOf, List.length_cons, samplesOf_length ws]
    omega

@[simp] theorem ser_nil : ser [] = [] := rfl

@[simp] theorem ser_cons (y : Sample) (ys : List Sample) : ser (y :: ys) = le32 y.i ++ le32 y.q ++ ser ys := rfl

@[simp] theorem ser_length (ys : List Sample) : (ser ys).length = 8 * ys.length := by
  induction ys with
  | nil => rfl
  | cons y ys ih => simp [le32, ih]; omega

/-- One step of the peak keeps it from being a NaN or negative. -/
theorem raisePeak_ok {peak p : F32} (hn : fpIsNaN peak = false) (hs : fpSign peak = false) :
    fpIsNaN (raisePeak peak p) = false ∧ fpSign (raisePeak peak p) = false := by
  unfold raisePeak
  split
  · rename_i h
    simp only [fpGt, Bool.and_eq_true, Bool.not_eq_true', decide_eq_true_eq] at h
    refine ⟨h.1.1, ?_⟩
    by_contra hc
    simp only [Bool.not_eq_false] at hc
    have h1 : fpVal p ≤ 0 := by simp [fpVal, hc]
    have h2 : 0 ≤ fpVal peak := by simp [fpVal, hs]
    omega
  · exact ⟨hn, hs⟩

/-- The peak power is never a NaN and never negative (42_level_tracker R165). -/
theorem peakPower_ok (r : NanRule) (ys : List Sample) :
    fpIsNaN (peakPower r ys) = false ∧ fpSign (peakPower r ys) = false := by
  suffices h : ∀ (ys : List Sample) (peak : F32), fpIsNaN peak = false → fpSign peak = false →
      fpIsNaN (ys.foldl (fun peak y => raisePeak peak (pow r y)) peak) = false ∧
      fpSign (ys.foldl (fun peak y => raisePeak peak (pow r y)) peak) = false from h ys _ (by decide) (by decide)
  intro ys
  induction ys with
  | nil => intro peak hn hs; exact ⟨hn, hs⟩
  | cons y ys ih =>
    intro peak hn hs
    obtain ⟨h1, h2⟩ := raisePeak_ok (p := pow r y) hn hs
    exact ih _ h1 h2

/-- Where every product and partial sum is exact the lane's sum has the exact value, in units of 2^-298
(41_filter R135). -/
theorem macLane_exact (r : NanRule) : ∀ (pairs : List (F32 × F32)) (acc : F32), fpIsFinite acc = true →
    (∀ hx ∈ pairs, fpIsFinite hx.1 = true ∧ fpIsFinite hx.2 = true) → exactFrom r acc pairs = true →
    fpIsFinite (pairs.foldl (fun acc hx => fpAdd r acc (fpMul r hx.1 hx.2)) acc) = true ∧
    fpVal (pairs.foldl (fun acc hx => fpAdd r acc (fpMul r hx.1 hx.2)) acc) * 2 ^ 149 =
      fpVal acc * 2 ^ 149 + (pairs.map fun hx => fpVal hx.1 * fpVal hx.2).sum := by
  intro pairs
  induction pairs with
  | nil => intro acc ha _ _; simpa using ha
  | cons hx pairs ih =>
    intro acc ha hf h
    obtain ⟨h1, h2⟩ := hf hx (by simp)
    simp only [exactFrom, Bool.and_eq_true, fpMulExact, fpAddExact, not_inf_of_finite h1, not_inf_of_finite h2,
      not_inf_of_finite ha, Bool.false_or, decide_eq_true_eq] at h
    obtain ⟨⟨⟨_, hp, hpv⟩, _, hs⟩, hr⟩ := h
    rw [not_inf_of_finite hp, Bool.false_or, Bool.and_eq_true, decide_eq_true_eq] at hs
    obtain ⟨h3, h4⟩ := ih _ hs.1 (fun y hy => hf y (by simp [hy])) hr
    refine ⟨h3, ?_⟩
    rw [List.foldl_cons, h4, hs.2, List.map_cons, List.sum_cons, ← hpv]
    ring

@[simp] theorem firOut_lane (c : Config) (hist : List Sample) (l : Lane) :
    (firOut c hist).lane l = firLane c l (lanePairs c hist l) := by
  cases l <;> rfl

/-- A lane of the reference (41_filter R134). -/
theorem firLane_reference {c : Config} (h : c.arith = .reference) (l : Lane) (pairs : List (F32 × F32)) :
    firLane c l pairs = macLane c.nan pairs := by
  simp [firLane, h]

/-- Where nothing rounds, every ARITH gives what the reference gives (41_filter R135). -/
theorem firLane_of_exact (c : Config) (l : Lane) {pairs : List (F32 × F32)}
    (h : exactFrom c.nan F32.zero pairs = true) : firLane c l pairs = macLane c.nan pairs := by
  unfold firLane implementationLane
  cases c.arith <;> simp [h]

end Sys2Proof.Machine
end

