-- ==== Sys2Proof/Laws/PerInstr.lean ====
section
/-! SUPPORT. Statements about every instruction as syntax, one lemma per constructor. -/

namespace Sys2Proof.Laws.EncodedPayloadFits

/-- The encoder gives each command word the OP of its row and the payload that the word fixes (30_encoding R75). -/
def Statement (i : Instr) : Prop :=
  opField (encode i).word = i.opcode.code ∧ (i.wf = true → (encode i).payloadFits = true)

theorem firReset : Statement .firReset := ⟨opField_commandWord _ _, fun _ => by decide⟩

theorem firProcess (len : BitVec 24) (payload : List F32) : Statement (.firProcess len payload) :=
  ⟨opField_commandWord _ _, fun h => by
    simpa [encode, Command.payloadFits, Opcode.payload, Instr.wf] using h⟩

theorem ltReset : Statement .ltReset := ⟨opField_commandWord _ _, fun _ => by decide⟩

theorem ltUpdate (p : F32) : Statement (.ltUpdate p) :=
  ⟨opField_commandWord _ _, fun _ => by simp [encode, Command.payloadFits, Opcode.payload]⟩

theorem ltRead : Statement .ltRead := ⟨opField_commandWord _ _, fun _ => by decide⟩

theorem fifoReset : Statement .fifoReset := ⟨opField_commandWord _ _, fun _ => by decide⟩

theorem fifoWrite (len : BitVec 24) (payload : List Byte) : Statement (.fifoWrite len payload) :=
  ⟨opField_commandWord _ _, fun h => by
    simpa [encode, Command.payloadFits, Opcode.payload, Instr.wf] using h⟩

theorem fifoRead (len : BitVec 24) : Statement (.fifoRead len) :=
  ⟨opField_commandWord _ _, fun _ => by simp [encode, Command.payloadFits, Opcode.payload]⟩

theorem fifoAvailRd : Statement .fifoAvailRd := ⟨opField_commandWord _ _, fun _ => by decide⟩

theorem fifoAvailWr : Statement .fifoAvailWr := ⟨opField_commandWord _ _, fun _ => by decide⟩

theorem pipeProcess (len : BitVec 24) (payload : List F32) : Statement (.pipeProcess len payload) :=
  ⟨opField_commandWord _ _, fun h => by
    simpa [encode, Command.payloadFits, Opcode.payload, Instr.wf] using h⟩

end Sys2Proof.Laws.EncodedPayloadFits
end

