-- ==== Sys2Proof/Tests/Slice0.lean ====
section
/-! SUPPORT. Tests with expected results from the spec (30_encoding, 95_test_vectors), and for each statement with
hypotheses a witness that meets them. -/

namespace Sys2Proof.Tests

open Sys2Proof Sys2Proof.Machine

/-! ### Well-formedness: what the check refuses -/

theorem test_wf_refuses_fir_payload_short : Instr.wf (.firProcess 2 [0, 0, 0]) = false := by decide

theorem test_wf_refuses_fifo_payload_long : Instr.wf (.fifoWrite 1 [0, 0]) = false := by decide

theorem test_wf_refuses_pipe_payload_missing : Instr.wf (.pipeProcess 1 []) = false := by decide

/-! ### Decoding, one word per row of 30_encoding R77, from R71 and R84 -/

theorem test_decode_firReset : decodeTableWord 32 0x01000000 = some .firReset := by decide

theorem test_decode_firProcess :
    decode ⟨0x02000002#32, [1, 2, 3, 4], []⟩ = .ok (.firProcess 2 [1, 2, 3, 4]) := by decide

theorem test_decode_ltReset : decodeTableWord 32 0x10000000 = some .ltReset := by decide

theorem test_decode_ltUpdate : decodeTableWord 64 0x3F80000011000000 = some (.ltUpdate 0x3F800000#32) := by decide

theorem test_decode_ltRead : decodeTableWord 32 0x12000000 = some .ltRead := by decide

theorem test_decode_fifoReset : decodeTableWord 32 0x20000000 = some .fifoReset := by decide

theorem test_decode_fifoWrite : decode ⟨0x21000003#32, [], [0xAA, 0xBB, 0xCC]⟩ =
    .ok (.fifoWrite 3 [0xAA, 0xBB, 0xCC]) := by decide

theorem test_decode_fifoRead : decodeTableWord 32 0x22FFFFFF = some (.fifoRead 0xFFFFFF#24) := by decide

theorem test_decode_fifoAvailRd : decodeTableWord 32 0x23000000 = some .fifoAvailRd := by decide

theorem test_decode_fifoAvailWr : decodeTableWord 32 0x24000000 = some .fifoAvailWr := by decide

theorem test_decode_pipeProcess :
    decode ⟨0x30000001#32, [0x3F800000, 0], []⟩ = .ok (.pipeProcess 1 [0x3F800000, 0]) := by decide

/-- ENC-3, ENC-4, ENC-5. -/
theorem test_decode_reserved :
    decode ⟨0x00000000#32, [], []⟩ = .error .reservedOp ∧ decode ⟨0xFF000000#32, [], []⟩ = .error .reservedOp ∧
      decode ⟨0x25000000#32, [], []⟩ = .error .reservedOp := by decide

/-- ENC-2, ENC-7. -/
theorem test_decode_nonzero_arg :
    decode ⟨0x01000001#32, [], []⟩ = .error .nonZeroArg ∧
      decode ⟨0x11000001#32, [0x3F800000], []⟩ = .error .nonZeroArg := by decide

/-- ENC-15. -/
theorem test_decode_payload_mismatch : decode ⟨0x11000000#32, [], []⟩ = .error .payloadMismatch := by decide

/-! ### States for the tests -/

/-- The power-on state of EX7. -/
def idle : State := State.powerOn Config.ex7

/-- Port `p` has one command to issue, and the next turn. -/
def issue (p : Port) (c : Command) (s : State) : State := { s with sched := [p], inbox := s.inbox.set p [c] }

/-- What a step leaves, seen through `f`. -/
def after {α : Type} (f : State → α) : Outcome → Option α
  | .next t => some (f t)
  | .fault _ => none
  | .refused _ => none

/-- The bytes `b, b+1, …`, `n` of them. -/
def bytesFrom (b n : Nat) : List Byte := (List.range n).map fun j => BitVec.ofNat 8 (b + j)

/-- The storage with `bs` at offset 0 and on. -/
def stored (bs : List Byte) : Memory := (List.range bs.length).zip bs

/-- After step 3 of program L3-2: `head = 10`, `tail = 6`, `count = 4`, the bytes `00 .. 09` at offsets 0 to 9. -/
def partly : State := { idle with buf := stored (bytesFrom 0 10), head := 10, tail := 6, count := 4 }

/-- After FIFO-3: the FIFO full, with the bytes `00 .. 0F`. -/
def full : State := { idle with buf := stored (bytesFrom 0 16), count := 16 }

/-- After step 6 of program L3-2: 14 bytes from offset 6 on, across the end of the storage. -/
def wrapped : State :=
  { idle with buf := stored ([0x16, 0x17, 0x18, 0x19] ++ bytesFrom 4 6 ++ bytesFrom 0x10 6), head := 4, tail := 6, count := 14 }

/-- FIFO-14's start: port C waits for 4 bytes and 2 are there. -/
def waiting : State := { partly with head := 10, tail := 8, count := 2, rdwait := some 4 }

/-- Samples `(1, 0)`, `n` of them, as payload words. -/
def ones (n : Nat) : List F32 := (List.replicate n [0x3F800000#32, 0]).flatten

/-- The FIFO unit and the events, to compare at once. -/
structure FifoView where
  head : Nat
  tail : Nat
  count : Nat
  buf : Memory
  events : List Event
  deriving DecidableEq, Repr

/-- The FIFO unit of a state, and its events. -/
def fifoView (s : State) : FifoView := ⟨s.head, s.tail, s.count, s.buf, s.events⟩

/-! ### Commands, one step each, from the vectors of 95_test_vectors -/

/-- 41_filter R137, from a history that is not zero. -/
theorem test_firReset :
    after State.hist (step (issue .producer ⟨0x01000000, [], []⟩
      { idle with hist := List.replicate 7 ⟨0x3F800000, 0x3F800000⟩ })) =
    some (List.replicate 7 ⟨0, 0⟩) := by decide

/-- FIR-6. -/
theorem test_firProcess_fir6 :
    after (fun t => t.results.producer) (step (issue .producer ⟨0x02000008,
      [0x3F800000, 0xC0000000, 0x40400000, 0x3F000000, 0xC0800000, 0x3F800000, 0, 0,
       0x40000000, 0x40000000, 0xBF800000, 0xBF800000, 0x3F000000, 0x3E800000, 0x41000000, 0xC1000000], []⟩ idle)) =
    some [⟨.ok, 0x4022D400, .words
      [0xBDC00000, 0xBC800000, 0x3FAC0000, 0xBF5C0000, 0xBF900000, 0x3F2C0000, 0x3EC00000, 0x3F740000]⟩] := by
  decide +kernel

/-- FIR-8, under an ARITH that is not the reference: the infinity reaches no output from a skipped tap, and the other
sums are exact. -/
theorem test_firProcess_fir8 :
    after (fun t => t.results.producer) (step (issue .producer ⟨0x02000006,
      [0x7F800000, 0, 0, 0, 0, 0, 0, 0, 0, 0, 0, 0], []⟩
      { idle with cfg := { Config.ex7 with arith := .implementation } })) =
    some [⟨.ok, 0x7F800000, .words [0, 0, 0x7F800000, 0, 0, 0]⟩] := by
  decide +kernel

/-- LT-1. -/
theorem test_ltReset :
    after (fun t => (t.level, t.events, t.results.producer)) (step (issue .producer ⟨0x10000000, [], []⟩
      { idle with level := 0x7F800000 })) =
    some (0x3A800000, [.level 0x3A800000], [⟨.ok, 0x3A800000, .none⟩]) := by decide

/-- LT-6: a negative power is recorded, and the tracker computes all the same. -/
theorem test_ltUpdate_lt6 :
    after (fun t => (t.level, t.faults, t.results.producer)) (step (issue .producer
      ⟨0x11000000, [0xBF800000], []⟩ idle)) =
    some (0xBDFE4000, ⟨false, true⟩, [⟨.ok, 0xBDFE4000, .none⟩]) := by decide +kernel

/-- LT-10: an overshoot of one ulp, with `ATTACK = 1`. -/
theorem test_ltUpdate_lt10 :
    after (fun t => (t.level, t.faults)) (step (issue .producer ⟨0x11000000, [0x3DB04289], []⟩
      { idle with level := 0x3A8590E0, cfg := { Config.ex7 with attack := 0x3F800000 } })) =
    some (0x3DB0428A, ⟨false, false⟩) := by decide +kernel

/-- ENC-8. -/
theorem test_ltRead :
    after (fun t => t.results.control) (step (issue .control ⟨0x12000000, [], []⟩ idle)) =
    some [⟨.ok, 0x3A800000, .none⟩] := by decide

/-- FIFO-13. -/
theorem test_fifoReset_fifo13 :
    after fifoView (step (issue .control ⟨0x20000000, [], []⟩
      { idle with buf := stored [1, 2, 3, 4], head := 4, count := 4 })) =
    some ⟨0, 0, 0, stored [1, 2, 3, 4], [.occ 0]⟩ := by decide

/-- FIFO-14. -/
theorem test_fifoReset_fifo14 :
    after (fun t => (t.count, t.rdwait, t.faults, t.events)) (step (issue .control ⟨0x20000000, [], []⟩ waiting)) =
    some (0, some 4, ⟨true, false⟩, [.occ 0]) := by decide

/-- FIFO-15: the write wraps. -/
theorem test_fifoWrite_fifo15 :
    after (fun t => (fifoView t, t.results.producer))
      (step (issue .producer ⟨0x2100000A, [], bytesFrom 0x10 10⟩ partly)) =
    some (⟨4, 6, 14, wrapped.buf, [.occ 14]⟩, [⟨.ok, 10, .none⟩]) := by decide +kernel

/-- FIFO-6. -/
theorem test_fifoWrite_fifo6 :
    after (fun t => (t.count, t.buf, t.events, t.results.producer))
      (step (issue .producer ⟨0x21000011, [], bytesFrom 0 17⟩ idle)) =
    some (0, [], [.drop 17 2], [⟨.dropped, 0, .none⟩]) := by decide +kernel

/-- Program L3-2, step 7: the read wraps. -/
theorem test_fifoRead_wraps :
    after (fun t => (t.tail, t.count, t.events, t.results.consumer))
      (step (issue .consumer ⟨0x2200000E, [], []⟩ wrapped)) =
    some (4, 0, [.occ 0], [⟨.ok, 14, .bytes (bytesFrom 6 4 ++ bytesFrom 0x10 10)⟩]) := by decide +kernel

/-- FIFO-9: the wait-end step. -/
theorem test_fifoRead_times_out :
    after (fun t => (t.rdwait, t.count, t.events, t.results.consumer))
      (step { idle with rdwait := some 4, sched := [.consumer] }) =
    some (none, 0, [], [⟨.timeout, 0, .none⟩]) := by decide

/-- The example of 40_fifo R106. -/
theorem test_fifoAvailRd :
    after (fun t => t.results.consumer) (step (issue .consumer ⟨0x23000000, [], []⟩ wrapped)) =
    some [⟨.ok, 14, .none⟩] := by decide

/-- Program L3-2, step 5. -/
theorem test_fifoAvailWr :
    after (fun t => t.results.producer) (step (issue .producer ⟨0x24000000, [], []⟩ wrapped)) =
    some [⟨.ok, 2, .none⟩] := by decide

/-- PIPE-1, its bytes by PIPE-6. -/
theorem test_pipeProcess_pipe1 :
    after (fun t => (t.level, fifoView t, t.results.producer)) (step (issue .producer ⟨0x30000004, ones 4, []⟩ idle)) =
    some (0x3E904000, ⟨0, 0, 16,
      stored [0x00, 0x00, 0x00, 0xBD, 0, 0, 0, 0, 0x00, 0x00, 0x40, 0x3F, 0, 0, 0, 0],
      [.level 0x3E904000, .occ 16]⟩, [⟨.ok, 0x3E904000, .none⟩]) := by
  decide +kernel

/-- PIPE-2: the drop advances the filter and the level. -/
theorem test_pipeProcess_pipe2 :
    after (fun t => (t.hist, t.level, fifoView t, t.results.producer))
      (step (issue .producer ⟨0x30000004, ones 4, []⟩
        { full with level := 0x3E904000
                    hist := List.replicate 4 ⟨0x3F800000, 0⟩ ++ List.replicate 3 ⟨0, 0⟩ })) =
    some (List.replicate 7 ⟨0x3F800000, 0⟩, 0x3F2C3000, ⟨0, 0, 16, full.buf, [.level 0x3F2C3000, .drop 16 2]⟩,
      [⟨.dropped, 0x3F2C3000, .none⟩]) := by
  decide +kernel

/-- ENC-10 and ENC-11: ILLEGAL comes before BAD_LEN. -/
theorem test_status_priority :
    after (fun t => t.results.consumer) (step (issue .consumer ⟨0x30000003, ones 3, []⟩ full)) =
      some [⟨.illegal, 0, .none⟩] ∧
    after (fun t => (t.results.producer, t.events)) (step (issue .producer ⟨0x30000003, ones 3, []⟩ full)) =
      some ([⟨.badLen, 0, .none⟩], []) := by decide

/-- The command that `withFetchWord` gives is the first to run after reset: `FIFO.AVAIL_RD` of an empty FIFO. -/
theorem test_first_command_after_reset :
    after (fun t => (t.results.producer, t.inbox.producer, t.sched))
      (step (State.reset.withFetchWord 32 0x23000000)) = some ([⟨.ok, 0, .none⟩], [], []) := by decide

/-- A command of port C, likewise: `FIFO.READ 4` of an empty FIFO waits. -/
theorem test_first_read_after_reset :
    after State.rdwait (step (State.reset.withFetchWord 32 0x22000004)) = some (some 4) := by decide

/-! ### Witnesses: for each statement with hypotheses, inputs that meet them -/

theorem ex7_valid : Config.ex7.valid = true := by decide +kernel

/-- A configuration at the ends of its ranges: `T = 3`, `LOG2N = 3`, `ATTACK = RELEASE = 1`, the least `LEVEL_INIT`. -/
def smallest : Config :=
  { Config.ex7 with taps := [0x00000001, 0x00000001, 0x00000001], log2N := 3, attack := 0x3F800000,
                    release := 0x3F800000, levelInit := 0x00000001 }

theorem witness_HardwareConfigurationMeetsConstraints :
    Config.ex7.valid = true ∧ smallest.valid = true ∧ ({ smallest with log2N := 23 } : Config).valid = true := by
  decide +kernel

theorem idle_inv : idle.Inv where
  cfg_valid := ex7_valid
  hist_length := by decide
  buf_wf := by decide
  buf_bound := by decide
  head_lt := by decide
  tail_lt := by decide
  count_le := by decide
  head_eq := by decide
  valid_written := by decide
  wait_positive := by decide

theorem partly_inv : partly.Inv where
  cfg_valid := ex7_valid
  hist_length := by decide
  buf_wf := by decide
  buf_bound := by decide
  head_lt := by decide
  tail_lt := by decide
  count_le := by decide
  head_eq := by decide
  valid_written := by decide
  wait_positive := by decide

theorem full_inv : full.Inv where
  cfg_valid := ex7_valid
  hist_length := by decide
  buf_wf := by decide
  buf_bound := by decide
  head_lt := by decide
  tail_lt := by decide
  count_le := by decide
  head_eq := by decide
  valid_written := by decide +kernel
  wait_positive := by decide

theorem waiting_inv : waiting.Inv where
  cfg_valid := ex7_valid
  hist_length := by decide
  buf_wf := by decide
  buf_bound := by decide
  head_lt := by decide
  tail_lt := by decide
  count_le := by decide
  head_eq := by decide
  valid_written := by decide
  wait_positive := by decide

theorem issue_inv {s : State} (p : Port) (c : Command) (h : s.Inv) : (issue p c s).Inv :=
  ⟨h.1, h.2, h.3, h.4, h.5, h.6, h.7, h.8, h.9, h.10⟩

theorem active_inv {s : State} (p : Port) (h : s.Inv) : ({ s with active := p } : State).Inv :=
  ⟨h.1, h.2, h.3, h.4, h.5, h.6, h.7, h.8, h.9, h.10⟩

theorem wait_inv {s : State} (len : BitVec 24) (ps : List Port) (h : s.Inv) (hl : len ≠ 0) :
    ({ s with rdwait := some len, sched := ps } : State).Inv :=
  ⟨h.1, h.2, h.3, h.4, h.5, h.6, h.7, h.8, h.9, by simpa using hl⟩

theorem witness_ResetMeetsInvariant : Config.ex7.valid = true := ex7_valid

theorem witness_StepKeepsInvariant :
    (issue .producer ⟨0x2100000C, [], bytesFrom 0 12⟩ partly).Inv ∧
      ∃ t, step (issue .producer ⟨0x2100000C, [], bytesFrom 0 12⟩ partly) = .next t :=
  ⟨issue_inv _ _ partly_inv, _, rfl⟩

theorem witness_StepKeepsConfiguration :
    ∃ t, step (issue .producer ⟨0x11000000, [0x3F800000], []⟩ idle) = .next t := ⟨_, rfl⟩

theorem witness_DecodeOfEncodeIsInstruction :
    Instr.wf (.firProcess 0 []) = true ∧ Instr.wf (.fifoWrite 2 [0, 0xFF]) = true ∧
      Instr.wf (.pipeProcess 1 [0, 0x7FC00000]) = true := by decide

theorem witness_EncodeOfDecodeIsCommand :
    decode ⟨0x02000001, [0, 0xFFFFFFFF], []⟩ = .ok (.firProcess 1 [0, 0xFFFFFFFF]) := by decide

theorem witness_WorkedEncodingsDecode :
    (List.replicate 16 (0 : Word)).length = 16 ∧ (bytesFrom 0 10).length = 10 ∧ (ones 4).length = 8 := by decide

/-- The first and the last OP of each reserved range of R80, on each port. -/
theorem witness_ReservedOpcodesEndIllegal :
    ([0x00000000#32, 0x03FFFFFF#32, 0x0F000000#32, 0x13000000#32, 0x1F000000#32, 0x25000000#32, 0x2F000000#32,
        0x31000000#32, 0xFFFFFFFF#32].all fun w => decide
      (opField w ∉ [0x01#8, 0x02#8, 0x10#8, 0x11#8, 0x12#8, 0x20#8, 0x21#8, 0x22#8, 0x23#8, 0x24#8, 0x30#8])) = true ∧
    ∀ p : Port, (issue p ⟨0x25000000, [], []⟩ idle).sched = [p] ∧ idle.rdwait = none ∧
      (issue p ⟨0x25000000, [], []⟩ idle).inbox.get p = [⟨0x25000000, [], []⟩] :=
  ⟨by decide, fun p => by cases p <;> decide⟩

/-- Both alternatives, at the least and the greatest ARG. -/
theorem witness_NonZeroArgumentEndsIllegal :
    opField 0x01000001#32 = 0x01#8 ∧ argField 0x01000001#32 ≠ 0 ∧
    opField 0x24FFFFFF#32 = 0x24#8 ∧ argField 0x24FFFFFF#32 ≠ 0 ∧
    opField 0x11000001#32 = 0x11#8 ∧ argField 0x11000001#32 ≠ 0 ∧
    (issue .consumer ⟨0x11000001, [0x3F800000], []⟩ idle).inbox.get .consumer =
      [⟨0x11000001, [0x3F800000], []⟩] := by decide

theorem witness_WrongPortEndsIllegal :
    (Instr.opcode (.firProcess 2 (ones 2)) ∈ [.firReset, .firProcess, .ltReset, .ltUpdate, .fifoWrite, .pipeProcess] ∧
      ({ idle with active := .consumer } : State).active ≠ .producer) ∧
    (Instr.opcode (.fifoRead 1) = .fifoRead ∧ idle.active ≠ .consumer) ∧
    Instr.opcode .fifoReset = .fifoReset ∧ idle.active ≠ .control := by decide

/-- ENC-15. -/
theorem witness_PayloadMismatchHasNoStep :
    (issue .producer ⟨0x11000000, [], []⟩ idle).inbox.get .producer = [⟨0x11000000, [], []⟩] ∧
      (([] : List Word).length, ([] : List Byte).length) ≠ payloadLength 0x11000000#32 := by decide

/-- The odd length above `MIN_IN`, the even one below it, and both ports. -/
theorem witness_IllegalBeforeBadLengthBeforeDropped :
    (3#24).toNat % 2 = 1 ∧ idle.cfg.minIn ≤ (3#24).toNat ∧ (0#24).toNat < idle.cfg.minIn ∧
      idle.active = .producer ∧ ({ idle with active := .control } : State).active ≠ .producer := by decide

theorem witness_StepRunsDecodedCommand :
    (issue .consumer ⟨0x22FFFFFF, [], []⟩ idle).sched = [.consumer] ∧ idle.rdwait = none ∧
      decode ⟨0x22FFFFFF, [], []⟩ = .ok (.fifoRead 0xFFFFFF) := by decide

theorem witness_IdleStepChangesNothing :
    ({ waiting with sched := [.producer] } : State).inbox.get .producer = [] ∧
      idle.sched = [] ∧ idle.rdwait = none := by decide

theorem witness_NoStepReadsUnwrittenCell :
    (issue .consumer ⟨0x22000010, [], []⟩ full).Inv ∧
      (issue .consumer ⟨0x22000010, [], []⟩ full).inboxFits = true :=
  ⟨issue_inv _ _ full_inv, by decide⟩

theorem witness_FaultsAndHistoriesOnlyGrow :
    (waiting.faults.insert .resetRace).has .resetRace = true ∧
    (∃ t, step (issue .control ⟨0x20000000, [], []⟩ waiting) = .next t) ∧
    ∃ t, step (issue .producer ⟨0x30000004, ones 4, []⟩ idle) = .next t :=
  ⟨by decide, ⟨_, rfl⟩, _, rfl⟩

/-- Each port's turn, and the step when no turn is left. -/
theorem witness_EachFieldHasItsWriterPorts :
    (∃ t, step (issue .producer ⟨0x01000000, [], []⟩ partly) = .next t) ∧
    (∃ t, step (issue .consumer ⟨0x23000000, [], []⟩ partly) = .next t) ∧
    (∃ t, step (issue .control ⟨0x20000000, [], []⟩ partly) = .next t) ∧
    waiting.sched = [] ∧ ∃ t, step waiting = .next t :=
  ⟨⟨_, rfl⟩, ⟨_, rfl⟩, ⟨_, rfl⟩, rfl, _, rfl⟩

theorem witness_ProducerNeverWaits :
    full.active ≠ .consumer ∧ ({ full with active := .control } : State).active ≠ .consumer := by decide

/-- The least negative power, a negative zero and a NaN; a reset with a read waiting and without one. -/
theorem witness_ModelFaultsHaveOneCauseEach :
    (∀ p ∈ [0x80000001#32, 0x80000000#32, 0xFFFFFFFF#32], ∃ t, exec (.ltUpdate p) idle = .next t) ∧
    (∃ t, exec .fifoReset { waiting with active := .control } = .next t) ∧
    ∃ t, exec .fifoReset { idle with active := .control } = .next t :=
  ⟨fun _ _ => ⟨_, rfl⟩, ⟨_, rfl⟩, _, rfl⟩

/-- A negative zero for the tracker, and a reset with no read waiting. -/
theorem witness_StepWithinContractRecordsNoFault :
    (∃ t, step (issue .producer ⟨0x11000000, [0x80000000], []⟩ idle) = .next t) ∧
    (issue .producer ⟨0x11000000, [0x80000000], []⟩ idle).noFault = true ∧
    (issue .producer ⟨0x11000000, [0x80000000], []⟩ idle).quiescentReset = true ∧
    (∀ (ps : List Port) (c : Command) (cs : List Command) (p : F32),
      (issue .producer ⟨0x11000000, [0x80000000], []⟩ idle).sched = .producer :: ps →
      (issue .producer ⟨0x11000000, [0x80000000], []⟩ idle).inbox.producer = c :: cs → decode c = .ok (.ltUpdate p) →
      fpIsNaN p = false ∧ (fpSign p = true → fpIsZero p = true)) ∧
    (issue .control ⟨0x20000000, [], []⟩ idle).quiescentReset = true := by
  refine ⟨⟨_, rfl⟩, by decide, by decide, ?_, by decide⟩
  intro ps c cs p _ hc hd
  obtain ⟨rfl, -⟩ : (⟨0x11000000, [0x80000000], []⟩ : Command) = c ∧ [] = cs := List.cons.inj hc
  have hp : (.ok (.ltUpdate 0x80000000#32) : Except Reject Instr) = .ok (.ltUpdate p) :=
    (show _ = decode ⟨0x11000000, [0x80000000], []⟩ by decide).trans hd
  injection hp with hp
  injection hp with hp
  subst hp
  decide

/-- A command that starts a wait. -/
theorem witness_EveryCommandLeavesOneRecord :
    ∃ t, step (issue .consumer ⟨0x22000005, [], []⟩ partly) = .next t := ⟨_, rfl⟩

/-- With no turn left, and with one. -/
theorem witness_EndedRunChangesNothing :
    partly.runEnded = true ∧ ({ partly with sched := [.consumer] } : State).runEnded = true ∧
      waiting.runEnded = false ∧ (issue .producer ⟨0x01000000, [], []⟩ partly).runEnded = false := by decide

theorem witness_EveryRunCanEnd :
    (issue .producer ⟨0x21000002, [], [1, 2]⟩ waiting).Inv ∧
      (issue .producer ⟨0x21000002, [], [1, 2]⟩ waiting).inboxFits = true :=
  ⟨issue_inv _ _ waiting_inv, by decide⟩

/-- No bytes, one byte more than there is room for, and as many as there is room for. -/
theorem witness_FifoWriteWritesAllOrDropsAll :
    partly.active = .producer ∧ partly.capacity - partly.count = 12 ∧
    ([] : List Byte).length = (0#24).toNat ∧
    ((13#24) ≠ 0 ∧ 12 < (13#24).toNat ∧ (bytesFrom 0 13).length = (13#24).toNat) ∧
    (12#24) ≠ 0 ∧ (12#24).toNat ≤ 12 ∧ (bytesFrom 0 12).length = (12#24).toNat := by decide

/-- No bytes, as many as are there, and one more. -/
theorem witness_FifoReadTakesOldestBytesOrWaits :
    ({ partly with active := .consumer } : State).Inv ∧ partly.rdwait = none ∧ partly.count = 4 ∧
      (4#24) ≠ 0 ∧ (4#24).toNat ≤ 4 ∧ 4 < (5#24).toNat :=
  ⟨active_inv _ partly_inv, by decide⟩

/-- With a turn of port C, and with no turn left. -/
theorem witness_WaitingReadCompletesWhenBytesAreThere :
    ({ partly with rdwait := some 4, sched := [.consumer] } : State).Inv ∧
      ({ partly with rdwait := some 4, sched := [] } : State).Inv ∧ (4#24).toNat ≤ partly.count :=
  ⟨wait_inv _ _ partly_inv (by decide), wait_inv _ _ partly_inv (by decide), by decide⟩

/-- One byte short, and a read of one byte more than the capacity; no turn left, and a turn of port C. -/
theorem witness_ShortWaitEndsInTimeout :
    partly.count < (5#24).toNat ∧ waiting.rdwait = some 4 ∧ waiting.count < (4#24).toNat ∧ waiting.sched = [] ∧
      ({ partly with rdwait := some 17, sched := [.consumer] } : State).Inv ∧ partly.capacity < (17#24).toNat :=
  ⟨by decide, rfl, by decide, rfl, wait_inv _ _ partly_inv (by decide), by decide⟩

/-- With no turn left, and with turns of other ports before C's. -/
theorem witness_EveryWaitEnds :
    (waiting.Inv ∧ waiting.inboxFits = true ∧ waiting.rdwait = some 4) ∧
    ({ waiting with rdwait := some 4, sched := [.producer, .control, .consumer] } : State).Inv ∧
      State.inboxFits { waiting with rdwait := some 4, sched := [.producer, .control, .consumer] } = true :=
  ⟨⟨waiting_inv, by decide, by decide⟩, wait_inv _ _ waiting_inv (by decide), by decide⟩

theorem witness_FifoResetEmptiesTheFifo : ({ waiting with active := .control } : State).active = .control := by decide

/-- A write that fits exactly, a block that is dropped and one that is accepted, the read of all bytes, one that waits, a
reset, a command on a wrong port; and the wait-end, with the bytes there and without, in both its forms. -/
theorem witness_FifoIsByteQueue :
    (partly.Inv ∧
      (Instr.wf (.fifoWrite 12 (bytesFrom 0 12)) = true ∧
        ∃ t, exec (.fifoWrite 12 (bytesFrom 0 12)) partly = .next t) ∧
      (Instr.wf (.pipeProcess 4 (ones 4)) = true ∧ partly.capacity - partly.count < 16 ∧
        ∃ t, exec (.pipeProcess 4 (ones 4)) partly = .next t) ∧
      (idle.Inv ∧ 16 ≤ idle.capacity - idle.count ∧ ∃ t, exec (.pipeProcess 4 (ones 4)) idle = .next t) ∧
      (∃ t, exec (.fifoRead 4) { partly with active := .consumer } = .next t) ∧
      (∃ t, exec (.fifoRead 5) { partly with active := .consumer } = .next t) ∧
      (∃ t, exec .fifoReset { partly with active := .control } = .next t) ∧
      ∃ t, exec .fifoReset partly = .next t) ∧
    (({ partly with rdwait := some 4, sched := [.consumer] } : State).Inv ∧
      ∃ t, step { partly with rdwait := some 4, sched := [.consumer] } = .next t) ∧
    (waiting.Inv ∧ waiting.rdwait = some 4 ∧ waiting.sched = [] ∧ ∃ t, step waiting = .next t) :=
  ⟨⟨partly_inv, ⟨by decide, _, rfl⟩, ⟨by decide, by decide, _, rfl⟩, ⟨idle_inv, by decide, _, rfl⟩, ⟨_, rfl⟩, ⟨_, rfl⟩,
      ⟨_, rfl⟩, _, rfl⟩,
    ⟨wait_inv _ _ partly_inv (by decide), _, rfl⟩, waiting_inv, rfl, rfl, _, rfl⟩

/-- A step that changes `count`, and one that does not. -/
theorem witness_OccupancyEventExactlyOnChange :
    (issue .control ⟨0x20000000, [], []⟩ partly).Inv ∧
    (∃ t, step (issue .control ⟨0x20000000, [], []⟩ partly) = .next t) ∧
    (issue .control ⟨0x20000000, [], []⟩ idle).Inv ∧
    ∃ t, step (issue .control ⟨0x20000000, [], []⟩ idle) = .next t :=
  ⟨issue_inv _ _ partly_inv, ⟨_, rfl⟩, issue_inv _ _ idle_inv, _, rfl⟩

theorem witness_FirResetZeroesHistory : idle.active = .producer := by decide

/-- The odd length, the even one below `MIN_IN`, and `MIN_IN` itself. -/
theorem witness_FirProcessFiltersAndDecimates :
    idle.active = .producer ∧ idle.hist.length = idle.cfg.tapCount ∧
      (3#24).toNat % 2 = 1 ∧ (0#24).toNat < idle.cfg.minIn ∧
      (2#24).toNat % 2 = 0 ∧ idle.cfg.minIn ≤ (2#24).toNat ∧ (List.replicate 2 Sample.zero).length = (2#24).toNat := by
  decide

theorem witness_BlocksMayBeSplit :
    idle.active = .producer ∧ (2#24).toNat % 2 = 0 ∧ idle.cfg.minIn ≤ (2#24).toNat ∧
      (List.replicate 2 Sample.zero).length = (2#24).toNat ∧ (2#24).toNat + (2#24).toNat < 2 ^ 24 := by decide

theorem witness_ReferenceOutputSumsActiveTaps : Config.ex7.arith = .reference := rfl

/-- Windows that differ on the other lane and at the skipped position 1. -/
theorem witness_LanesAreSeparate :
    ∀ k ∈ Config.ex7.activeTaps, (histAt (List.replicate 7 Sample.zero) k).lane .i =
      (histAt [⟨0, 0x7F800000⟩, ⟨0x7FC00000, 1⟩, ⟨0, 3⟩, ⟨0, 4⟩, ⟨0, 5⟩, ⟨0, 2⟩, ⟨0, 6⟩] k).lane .i := by decide

/-- A tap's product with the window `(1, 0), (0, 0), …` of EX7, in units of 2^-298. -/
def impulseUnits (k : Nat) : Int :=
  fpVal (Config.ex7.tap k) * fpVal ((histAt (⟨0x3F800000, 0⟩ :: List.replicate 6 Sample.zero) k).lane .i)

theorem impulseUnits_map :
    Config.ex7.activeTaps.map impulseUnits = [fpVal 0xBD000000 * 2 ^ 149, 0, 0, 0, 0] := by decide +kernel

/-- The impulse at the newest sample, under another ARITH. -/
theorem witness_ExactSumsAreReturnedByEveryArith :
    ({ Config.ex7 with arith := .implementation } : Config).valid = true ∧
    (∀ k ∈ Config.ex7.activeTaps,
      fpIsFinite ((histAt (⟨0x3F800000, 0⟩ :: List.replicate 6 Sample.zero) k).lane .i) = true) ∧
    (∀ k ∈ Config.ex7.activeTaps, ∃ w : F32, fpIsFinite w = true ∧ fpVal w * 2 ^ 149 = impulseUnits k) ∧
    ∀ n, ∃ w : F32, fpIsFinite w = true ∧
      fpVal w * 2 ^ 149 = ((Config.ex7.activeTaps.take n).map impulseUnits).sum := by
  refine ⟨by decide +kernel, by decide, fun k hk => ?_, fun n => ?_⟩
  · have h := List.mem_map_of_mem (f := impulseUnits) hk
    simp only [impulseUnits_map, List.mem_cons, List.not_mem_nil, or_false, or_self] at h
    rcases h with h | h
    · exact ⟨0xBD000000, by decide, h.symm⟩
    · exact ⟨0, by decide, by rw [h]; decide⟩
  · rw [List.map_take, impulseUnits_map]
    match n with
    | 0 => exact ⟨0, by decide, by decide⟩
    | n + 1 => exact ⟨0xBD000000, by decide, by
        have : (List.take n [0, 0, 0, (0 : Int)]).sum = 0 := by
          match n with
          | 0 | 1 | 2 | 3 => rfl
          | n + 4 => simp
        rw [List.take_succ_cons, List.sum_cons, this, Int.add_zero]⟩

/-- FIR-10's first window: the NaN at the active tap 0. -/
theorem witness_NanAtActiveTapGivesNan : 0 ∈ Config.ex7.activeTaps ∧
    fpIsNaN ((histAt (⟨0x7FC00000, 0⟩ :: List.replicate 6 Sample.zero) 0).lane .i) = true := by decide

/-- Two windows that differ at the skipped positions 1 and 5 only, and an all-zero window of both signs. -/
theorem witness_SkippedTapsDoNotReachOutput :
    Config.ex7.arith = .reference ∧ Config.ex7.valid = true ∧
    (∀ k ∈ Config.ex7.activeTaps, histAt (List.replicate 7 Sample.zero) k =
      histAt [⟨0, 0⟩, ⟨0x7FC00000, 1⟩, ⟨0, 0⟩, ⟨0, 0⟩, ⟨0, 0⟩, ⟨0x7F800000, 2⟩, ⟨0, 0⟩] k) ∧
    ∀ k ∈ Config.ex7.activeTaps, fpIsZero (histAt (List.replicate 7 ⟨0x80000000, 0⟩) k).i = true ∧
      fpIsZero (histAt (List.replicate 7 ⟨0x80000000, 0⟩) k).q = true :=
  ⟨rfl, ex7_valid, by decide, by decide⟩

/-- The first and the last sample of the shortest block. -/
theorem witness_ImpulseResponseIsTheTaps :
    idle.active = .producer ∧ idle.cfg.valid = true ∧ idle.cfg.arith = .reference ∧
      0 < (2#24).toNat ∧ 1 < (2#24).toNat ∧ (2#24).toNat % 2 = 0 ∧ idle.cfg.minIn ≤ (2#24).toNat :=
  ⟨rfl, ex7_valid, rfl, by decide⟩

/-- A tie, a subnormal, and the greatest finite value. -/
theorem witness_SumsAndProductsRoundToNearestEven :
    (fpIsFinite 0x33800000#32 = true ∧ fpIsFinite 0x3F800000#32 = true ∧ fpIsFinite 0x00000001#32 = true ∧
      fpIsFinite 0x7F7FFFFF#32 = true) ∧
    (fpIsFinite (fpAdd .free 0x3F800000 0x33800000) = true ∧ fpIsFinite (fpMul .free 0x3F800000 0x33800000) = true) ∧
    (fpIsFinite (fpAdd .free 0x00000001 0x33800000) = true ∧ fpIsFinite (fpMul .free 0x00000001 0x33800000) = true) ∧
    fpIsFinite (fpAdd .free 0x7F7FFFFF 0x33800000) = true ∧ fpIsFinite (fpMul .free 0x7F7FFFFF 0x33800000) = true := by
  refine ⟨by decide, ⟨?_, ?_⟩, ⟨?_, ?_⟩, ?_, ?_⟩ <;> decide +kernel

/-- A NaN; infinities; sums at the overflow bound and just below it; two negative zeros. -/
theorem witness_SpecialSumsFollowIeee754 :
    fpIsNaN 0x7F800001#32 = true ∧ fpIsInf 0x7F800000#32 = true ∧ fpIsInf 0xFF800000#32 = true ∧
    fpVal 0x7F7FFFFF + fpVal 0x73000000 = (2 ^ 25 - 1) * 2 ^ 252 ∧
    fpVal 0xFF7FFFFF + fpVal 0xF3000000 = -((2 ^ 25 - 1) * 2 ^ 252) ∧
    fpVal 0x7F7FFFFF + fpVal 0x72FFFFFF < (2 ^ 25 - 1) * 2 ^ 252 ∧
    fpVal 0x80000000 + fpVal 0x80000000 = 0 := by decide +kernel

/-- Infinity times zero and times a finite value; products at the overflow bound's two sides; a zero product. -/
theorem witness_SpecialProductsFollowIeee754 :
    fpIsInf 0xFF800000#32 = true ∧ fpIsZero 0x80000000#32 = true ∧
    fpIsNaN (fpMul .free 0xFF800000 0x3F800000) = false ∧
    fpIsInf (fpMul .free 0x7F7FFFFF 0x3F800001) = true ∧ fpIsInf (fpMul .free 0x7F7FFFFF 0x3F800000) = false ∧
    fpVal 0x80000000 * fpVal 0x3F800000 = 0 := by
  refine ⟨by decide, by decide, ?_, ?_, ?_, ?_⟩ <;> decide +kernel

theorem witness_LtResetSetsNeutralLevel : idle.active = .producer := by decide

theorem witness_LtUpdateAppliesUpdateLaw :
    idle.active = .producer ∧ idle.cfg.arith = .reference ∧
      ({ Config.ex7 with arith := .implementation } : Config).arith = .implementation := ⟨rfl, rfl, rfl⟩

theorem witness_EveryLevelWriteIsAnnounced :
    (∃ t, exec (.pipeProcess 2 (ones 2)) idle = .next t) ∧ ∃ t, exec (.pipeProcess 1 (ones 1)) idle = .next t :=
  ⟨⟨_, rfl⟩, _, rfl⟩

theorem witness_NanLevelStaysAndEqualPowerKeeps :
    Config.ex7.arith = .reference ∧ Config.ex7.valid = true ∧ fpIsNaN 0x7F800001#32 = true ∧
      fpIsFinite 0x7F7FFFFF#32 = true ∧ fpEq 0x7F7FFFFF 0x7F7FFFFF = true ∧
      fpIsFinite 0x00000000#32 = true ∧ fpEq 0x80000000 0x00000000 = true :=
  ⟨rfl, ex7_valid, by decide +kernel⟩

theorem witness_InfinitePowerDrivesLevelToInfinity :
    Config.ex7.arith = .reference ∧ Config.ex7.valid = true ∧ fpIsFinite 0xFF7FFFFF#32 = true ∧
      fpIsFinite 0x00000000#32 = true := ⟨rfl, ex7_valid, by decide⟩

theorem witness_TrackerKeepsRangeBelowTheTop :
    Config.ex7.arith = .reference ∧ Config.ex7.valid = true ∧
      fpInRange 0x7F7FFFFF#32 = true ∧ fpInRange 0x00000000#32 = true ∧
      fpInRange 0x7EFFFFFF#32 = true ∧ fpExp 0x7EFFFFFF#32 ≤ 253 :=
  ⟨rfl, ex7_valid, by decide +kernel⟩

theorem witness_TrackerKeepsRangeAsTheSpecSays :
    Config.ex7.arith = .reference ∧ Config.ex7.valid = true ∧ fpInRange 0x3F800000#32 = true :=
  ⟨rfl, ex7_valid, by decide +kernel⟩

/-- A length that BAD_LEN refuses, a block that fills the FIFO exactly, and one that a full FIFO drops. -/
theorem witness_PipeFiltersTracksAndWritesOrDrops :
    idle.active = .producer ∧ idle.hist.length = idle.cfg.tapCount ∧ (1#24).toNat % 2 = 1 ∧
      (4#24).toNat % 2 = 0 ∧ idle.cfg.minIn ≤ (4#24).toNat ∧ 4 * (4#24).toNat ≤ idle.capacity - idle.count ∧
      full.active = .producer ∧ full.capacity - full.count < 4 * (4#24).toNat ∧
      (List.replicate 4 Sample.zero).length = (4#24).toNat := by decide

theorem witness_PipeEqualsFilterTrackWrite :
    idle.active = .producer ∧ (2#24).toNat % 2 = 0 ∧ idle.cfg.minIn ≤ (2#24).toNat ∧ 0 < (2#24).toNat ∧
      4 * (2#24).toNat < 2 ^ 24 ∧ (List.replicate 2 Sample.zero).length = (2#24).toNat := by decide

theorem witness_SamplesAreSerializedLittleEndian :
    [(⟨0x3F800000, 0⟩ : Sample)][0]? = some ⟨0x3F800000, 0⟩ ∧ 3 < 4 := by decide

end Sys2Proof.Tests
end

section
/-! Rounding to nearest, stated once: between two neighbouring binary32 magnitudes `fpRound` decides by their
midpoint, and at the midpoint by the parity of the lower encoding. The rounding and overflow statements follow. -/

namespace Sys2Proof

theorem le_fpDrop (n sh : Nat) : sh ≤ fpDrop n sh := le_max_right _ _

/-- A magnitude keeps at most 24 bits. -/
theorem div_fpDrop_lt (n sh : Nat) : n / 2 ^ fpDrop n sh < 2 ^ 24 := by
  rw [Nat.div_lt_iff_lt_mul (Nat.two_pow_pos _), ← Nat.pow_add]
  refine lt_of_lt_of_le Nat.lt_log2_self (Nat.pow_le_pow_right (by decide) ?_)
  unfold fpDrop; omega

/-- Where more bits are dropped than lie below the unit, the kept significand is normal. -/
theorem le_div_fpDrop {n sh : Nat} (h : fpDrop n sh ≠ sh) : 2 ^ 23 ≤ n / 2 ^ fpDrop n sh := by
  have hq : fpDrop n sh = n.log2 - 23 := by unfold fpDrop at *; omega
  have hlog : 23 ≤ n.log2 := by unfold fpDrop at h; omega
  have hn : n ≠ 0 := by rintro rfl; simp at hlog
  rw [hq, Nat.le_div_iff_mul_le (Nat.two_pow_pos _), ← Nat.pow_add, show 23 + (n.log2 - 23) = n.log2 by omega]
  exact Nat.log2_self_le hn

/-- The encoding bits that exponent field and significand of a rounding make: a significand of 2^24 carries. -/
theorem fpMagBits_significand {e d : Nat} (hd : d ≤ 2 ^ 24) (he : e = 0 ∨ 2 ^ 23 ≤ d) :
    fpMagBits (e * 2 ^ 23 + d) = d * 2 ^ e := by
  unfold fpMagBits
  rcases Nat.lt_or_ge d (2 ^ 23) with h23 | h23
  · obtain rfl : e = 0 := by omega
    rw [if_pos (by omega)]; omega
  · rw [if_neg (by omega)]
    rcases Nat.lt_or_eq_of_le hd with h24 | rfl
    · rw [show (e * 2 ^ 23 + d) / 2 ^ 23 = e + 1 by omega, show 2 ^ 23 + (e * 2 ^ 23 + d) % 2 ^ 23 = d by omega]
      rfl
    · rw [show (e * 2 ^ 23 + 2 ^ 24) / 2 ^ 23 - 1 = e + 1 by omega, show (e * 2 ^ 23 + 2 ^ 24) % 2 ^ 23 = 0 by omega]
      ring

/-- The greatest encoding whose magnitude does not exceed `n` units of 2^-(149+sh). -/
def fpFloor (n sh : Nat) : Nat := (fpDrop n sh - sh) * 2 ^ 23 + n / 2 ^ fpDrop n sh

theorem fpFloor_mod_two (n sh : Nat) : fpFloor n sh % 2 = n / 2 ^ fpDrop n sh % 2 := by
  unfold fpFloor; omega

theorem fpMagBits_fpFloor (n sh : Nat) :
    fpMagBits (fpFloor n sh) * 2 ^ sh = n / 2 ^ fpDrop n sh * 2 ^ fpDrop n sh := by
  have hd := div_fpDrop_lt n sh
  rw [fpFloor, fpMagBits_significand hd.le, Nat.mul_assoc, ← Nat.pow_add, Nat.sub_add_cancel (le_fpDrop n sh)]
  by_cases h : fpDrop n sh = sh
  · left; omega
  · exact .inr (le_div_fpDrop h)

theorem fpMagBits_fpFloor_succ (n sh : Nat) :
    fpMagBits (fpFloor n sh + 1) * 2 ^ sh = (n / 2 ^ fpDrop n sh + 1) * 2 ^ fpDrop n sh := by
  have hd := div_fpDrop_lt n sh
  rw [fpFloor, Nat.add_assoc, fpMagBits_significand hd, Nat.mul_assoc, ← Nat.pow_add,
    Nat.sub_add_cancel (le_fpDrop n sh)]
  by_cases h : fpDrop n sh = sh
  · left; omega
  · exact .inr (le_trans (le_div_fpDrop h) (Nat.le_succ _))

theorem fpFloor_le (n sh : Nat) : fpMagBits (fpFloor n sh) * 2 ^ sh ≤ n :=
  fpMagBits_fpFloor n sh ▸ Nat.div_mul_le_self _ _

theorem lt_fpFloor_succ (n sh : Nat) : n < fpMagBits (fpFloor n sh + 1) * 2 ^ sh := by
  rw [fpMagBits_fpFloor_succ, Nat.mul_comm]
  exact Nat.lt_mul_div_succ n (Nat.two_pow_pos _)

theorem fpMagBits_mul_lt_mul {m k : Nat} (sh : Nat) (h : m < k) : fpMagBits m * 2 ^ sh < fpMagBits k * 2 ^ sh :=
  Nat.mul_lt_mul_of_pos_right (fpMagBits_strictMono h) (Nat.two_pow_pos _)

theorem fpMagBits_mul_le_mul {m k : Nat} (sh : Nat) (h : m ≤ k) : fpMagBits m * 2 ^ sh ≤ fpMagBits k * 2 ^ sh :=
  Nat.mul_le_mul_right _ (fpMagBits_strictMono.monotone h)

/-- At the encodings around `n` itself: it rounds up past the midpoint, and on the midpoint from an odd encoding. -/
theorem fpFloor_lt_fpRound_iff {n sh : Nat} (hf : fpFloor n sh < 0x7F800000) :
    fpFloor n sh < fpRound n sh ↔
      fpMagBits (fpFloor n sh) * 2 ^ sh + fpMagBits (fpFloor n sh + 1) * 2 ^ sh < 2 * n ∨
      fpMagBits (fpFloor n sh) * 2 ^ sh + fpMagBits (fpFloor n sh + 1) * 2 ^ sh = 2 * n ∧ fpFloor n sh % 2 = 1 := by
  have hn := Nat.div_add_mod' n (2 ^ fpDrop n sh)
  rw [fpMagBits_fpFloor, fpMagBits_fpFloor_succ, fpFloor_mod_two, Nat.succ_mul]
  unfold fpRound fpNearest
  unfold fpFloor at *
  split <;> omega

/-- Rounding to nearest, ties to even: `n` rounds above the encoding `m` exactly where it lies above the midpoint of
`m` and its successor, or on it with `m` odd. -/
theorem lt_fpRound_iff {n sh m : Nat} (hm : m < 0x7F800000) :
    m < fpRound n sh ↔
      fpMagBits m * 2 ^ sh + fpMagBits (m + 1) * 2 ^ sh < 2 * n ∨
      fpMagBits m * 2 ^ sh + fpMagBits (m + 1) * 2 ^ sh = 2 * n ∧ m % 2 = 1 := by
  have hstep := fpMagBits_mul_lt_mul sh (Nat.lt_add_one m)
  rcases Nat.lt_trichotomy m (fpFloor n sh) with h | rfl | h
  · have hle := le_trans (fpMagBits_mul_le_mul sh (show m + 1 ≤ _ from h)) (fpFloor_le n sh)
    have : m < fpRound n sh := le_fpRound_of_le hm hle
    simp only [this, true_iff]
    omega
  · exact fpFloor_lt_fpRound_iff hm
  · have hlt := lt_of_lt_of_le (lt_fpFloor_succ n sh) (fpMagBits_mul_le_mul sh h)
    have : ¬ m < fpRound n sh := Nat.not_lt.mpr (fpRound_le_of_le hm.le hlt.le)
    simp only [this, false_iff]
    omega

/-- No magnitude is nearer to `n` than the rounded one, and one as near leaves an even encoding. -/
theorem fpRound_nearest {n sh k : Nat} (hr : fpRound n sh < 0x7F800000) :
    |(fpMagBits (fpRound n sh) * 2 ^ sh - n : Int)| ≤ |(fpMagBits k * 2 ^ sh - n : Int)| ∧
    (|(fpMagBits (fpRound n sh) * 2 ^ sh - n : Int)| = |(fpMagBits k * 2 ^ sh - n : Int)| → k ≠ fpRound n sh →
      fpRound n sh % 2 = 0) := by
  generalize hm : fpRound n sh = m at *
  have hup := (lt_fpRound_iff (n := n) (sh := sh) hr).not.mp (by omega)
  zify at hup
  rcases Nat.lt_trichotomy k m with h | rfl | h
  · obtain ⟨j, rfl⟩ : ∃ j, m = j + 1 := ⟨m - 1, by omega⟩
    have hlow := (lt_fpRound_iff (n := n) (sh := sh) (m := j) (by omega)).mp (by omega)
    have hk := fpMagBits_mul_le_mul sh (Nat.le_of_lt_succ h)
    have hj := fpMagBits_mul_lt_mul sh (Nat.lt_add_one j)
    zify at hlow hk hj
    simp only [Int.abs_eq_natAbs]
    omega
  · exact ⟨le_rfl, fun _ hne => absurd rfl hne⟩
  · have hk := fpMagBits_mul_le_mul sh (show m + 1 ≤ _ from h)
    have hj := fpMagBits_mul_lt_mul sh (Nat.lt_add_one m)
    zify at hk hj
    simp only [Int.abs_eq_natAbs]
    omega

/-- Scaling a value scales its magnitude. -/
theorem fpVal_mul_two_pow (w : F32) (sh : Nat) :
    fpVal w * 2 ^ sh = if fpSign w then -((fpMag w * 2 ^ sh : Nat) : Int) else (fpMag w * 2 ^ sh : Nat) := by
  unfold fpVal; push_cast; split <;> ring

/-- What is nearest among magnitudes is nearest among signed values, where it has the sign of the exact value `n`; only
a value of another magnitude can be as near, and then its magnitude is. -/
theorem nearest_signed {r k n : Nat} (s t : Bool) (hle : |(r - n : Int)| ≤ |(k - n : Int)|) (h0 : n = 0 → r = 0) :
    |(if s then -(r : Int) else r) - (if s then -(n : Int) else n)| ≤
      |(if t then -(k : Int) else k) - (if s then -(n : Int) else n)| ∧
    (|(if s then -(r : Int) else r) - (if s then -(n : Int) else n)| =
      |(if t then -(k : Int) else k) - (if s then -(n : Int) else n)| →
      (if t then -(k : Int) else k) ≠ (if s then -(r : Int) else r) →
      |(r - n : Int)| = |(k - n : Int)| ∧ k ≠ r) := by
  rw [Int.abs_eq_natAbs, Int.abs_eq_natAbs] at hle
  cases s <;> cases t <;> simp only [reduceIte, Bool.false_eq_true, Int.abs_eq_natAbs] <;> omega

/-- The sign bit does not touch an encoding's parity. -/
theorem fpPack_toNat_mod_two (s : Bool) {m : Nat} (hm : m < 2 ^ 31) : (fpPack s m).toNat % 2 = m % 2 := by
  rw [fpPack_toNat s hm]; split <;> omega

/-- `v` is the value `x`, in units of 2^-(149+sh), rounded to nearest with ties to even: no value is nearer to `x`,
and where another is as near the encoding of `v` is even. -/
def IsNearestEven (v : F32) (sh : Nat) (x : Int) : Prop :=
  ∀ w : F32, |fpVal v * 2 ^ sh - x| ≤ |fpVal w * 2 ^ sh - x| ∧
    (|fpVal v * 2 ^ sh - x| = |fpVal w * 2 ^ sh - x| → fpVal w ≠ fpVal v → v.toNat % 2 = 0)

/-- The rounding of a signed value, given by its sign and magnitude. -/
theorem isNearestEven_pack_fpRound (s : Bool) {n sh : Nat} {x : Int} (hx : x = if s then -(n : Int) else n)
    (hfin : fpIsFinite (fpPack s (fpRound n sh)) = true) : IsNearestEven (fpPack s (fpRound n sh)) sh x := by
  intro w
  have hlt := fpRound_lt n sh
  rw [fpIsFinite_iff, pack_mod s hlt] at hfin
  obtain ⟨hle, htie⟩ := fpRound_nearest (k := w.toNat % 2 ^ 31) hfin
  have hzero : n = 0 → fpMagBits (fpRound n sh) * 2 ^ sh = 0 := by
    rintro rfl; simp [fpMagBits]
  obtain ⟨hsle, hstie⟩ := nearest_signed (r := fpMagBits (fpRound n sh) * 2 ^ sh)
    (k := fpMagBits (w.toNat % 2 ^ 31) * 2 ^ sh) s (fpSign w) (by exact_mod_cast hle) hzero
  have hres : fpVal (fpPack s (fpRound n sh)) * 2 ^ sh = if s then -((fpMagBits (fpRound n sh) * 2 ^ sh : Nat) : Int)
      else (fpMagBits (fpRound n sh) * 2 ^ sh : Nat) := by
    rw [fpVal_mul_two_pow, fpSign_pack s hlt, fpMag_pack s hlt]
  rw [← fpMag_eq, ← fpVal_mul_two_pow, ← hx, ← hres] at hsle hstie
  refine ⟨hsle, fun heq hne => ?_⟩
  obtain ⟨hmag, hother⟩ := hstie heq fun h => hne (mul_right_cancel₀ (by positivity) h)
  rw [fpMag_eq] at hmag hother
  have heven : fpRound n sh % 2 = 0 := htie (by exact_mod_cast hmag) fun h => hother (by rw [h])
  rwa [fpPack_toNat_mod_two s hlt]

/-- The sum of finite values is its exact value's magnitude rounded, under a sign that is the exact value's. -/
theorem fpSum_eq_pack (r : NanRule) (op : FpOp) {a b : F32} (ha : fpIsFinite a = true) (hb : fpIsFinite b = true) :
    ∃ s : Bool, fpSum r op a b = fpPack s (fpRound (fpVal a + fpVal b).natAbs 0) ∧
      fpVal a + fpVal b = if s then -((fpVal a + fpVal b).natAbs : Int) else (fpVal a + fpVal b).natAbs := by
  rw [fpSum_finite r op ha hb]
  split
  · rename_i h0
    exact ⟨fpSign a && fpSign b, by simp [h0], by simp [h0]⟩
  · refine ⟨decide (fpVal a + fpVal b < 0), rfl, ?_⟩
    split <;> rename_i hs <;> simp only [decide_eq_true_eq] at hs <;> omega

/-- The product of two values has the exclusive or of their signs and the product of their magnitudes. -/
theorem fpVal_mul (a b : F32) :
    fpVal a * fpVal b =
      if (fpSign a != fpSign b) then -((fpMag a * fpMag b : Nat) : Int) else (fpMag a * fpMag b : Nat) := by
  unfold fpVal
  cases fpSign a <;> cases fpSign b <;> simp

theorem isNearestEven_fpSum (r : NanRule) (op : FpOp) {a b : F32} (ha : fpIsFinite a = true)
    (hb : fpIsFinite b = true) (hfin : fpIsFinite (fpSum r op a b) = true) :
    IsNearestEven (fpSum r op a b) 0 (fpVal a + fpVal b) := by
  obtain ⟨s, hs, hx⟩ := fpSum_eq_pack r op ha hb
  rw [hs] at hfin ⊢
  exact isNearestEven_pack_fpRound s hx hfin

theorem isNearestEven_fpMul (r : NanRule) {a b : F32} (ha : fpIsFinite a = true) (hb : fpIsFinite b = true)
    (hfin : fpIsFinite (fpMul r a b) = true) : IsNearestEven (fpMul r a b) 149 (fpVal a * fpVal b) := by
  rw [fpMul_finite r ha hb] at hfin ⊢
  exact isNearestEven_pack_fpRound _ (fpVal_mul a b) hfin

theorem isNearestEven_fpAdd (r : NanRule) {a b : F32} (ha : fpIsFinite a = true) (hb : fpIsFinite b = true)
    (hfin : fpIsFinite (fpAdd r a b) = true) : IsNearestEven (fpAdd r a b) 0 (fpVal a + fpVal b) :=
  isNearestEven_fpSum r .add ha hb hfin

/-- A difference is the sum with `-b`. -/
theorem isNearestEven_fpSub (r : NanRule) {a b : F32} (ha : fpIsFinite a = true) (hb : fpIsFinite b = true)
    (hfin : fpIsFinite (fpSub r a b) = true) : IsNearestEven (fpSub r a b) 0 (fpVal a - fpVal b) := by
  rw [sub_eq_add_neg, ← fpVal_neg]
  exact isNearestEven_fpSum r .sub ha ((fpIsFinite_neg b).trans hb) hfin

/-- Settles O44: sums, differences and products are each the rounding of the exact result. -/
theorem sumsAndProductsRoundToNearestEven : Obligations.SumsAndProductsRoundToNearestEven := by
  intro r a b ha hb
  refine ⟨fun h w _ => ?_, fun h w _ => ?_, fun h w _ => isNearestEven_fpMul r ha hb h w⟩
  · simpa using isNearestEven_fpAdd r ha hb h w
  · simpa using isNearestEven_fpSub r ha hb h w

end Sys2Proof
end

section
/-! Overflow, and NaN, infinite and zero operands: which rounded magnitudes overflow, then the cases of `fpSum` and of
`fpMul`. -/

namespace Sys2Proof

/-! ### Overflow -/

/-- Rounding gives the infinity from half an ulp above the greatest finite value on. -/
theorem fpRound_eq_inf_iff (n sh : Nat) :
    fpRound n sh = 0x7F800000 ↔ (2 ^ 25 - 1) * 2 ^ 252 * 2 ^ sh ≤ n := by
  have hle := fpRound_le n sh
  have hmid : fpMagBits 0x7F7FFFFF + fpMagBits (0x7F7FFFFF + 1) = 2 * ((2 ^ 25 - 1) * 2 ^ 252) := by decide
  have hiff := lt_fpRound_iff (n := n) (sh := sh) (m := 0x7F7FFFFF) (by decide)
  rw [← Nat.add_mul, hmid, Nat.mul_assoc 2] at hiff
  omega

/-- An encoding made by rounding is finite where its magnitude does not overflow. -/
theorem fpIsFinite_pack_fpRound_iff (s : Bool) (n sh : Nat) :
    fpIsFinite (fpPack s (fpRound n sh)) = true ↔ n < (2 ^ 25 - 1) * 2 ^ 252 * 2 ^ sh := by
  have hle := fpRound_le n sh
  have hinf := fpRound_eq_inf_iff n sh
  rw [fpIsFinite_iff, pack_mod s (fpRound_lt n sh)]
  omega

theorem fpIsInf_pack_fpRound_iff (s : Bool) (n sh : Nat) :
    fpIsInf (fpPack s (fpRound n sh)) = true ↔ (2 ^ 25 - 1) * 2 ^ 252 * 2 ^ sh ≤ n := by
  rw [fpIsInf_iff, pack_mod s (fpRound_lt n sh), fpRound_eq_inf_iff]

theorem fpSum_overflow_pos (r : NanRule) (op : FpOp) {a b : F32} (ha : fpIsFinite a = true)
    (hb : fpIsFinite b = true) (h : (2 ^ 25 - 1) * 2 ^ 252 ≤ fpVal a + fpVal b) :
    fpSum r op a b = 0x7F800000#32 := by
  have hround : fpRound (fpVal a + fpVal b).natAbs 0 = 0x7F800000 := (fpRound_eq_inf_iff _ 0).mpr (by omega)
  rw [fpSum_finite r op ha hb, if_neg (by omega), hround, decide_eq_false (by omega)]
  rfl

theorem fpSum_overflow_neg (r : NanRule) (op : FpOp) {a b : F32} (ha : fpIsFinite a = true)
    (hb : fpIsFinite b = true) (h : fpVal a + fpVal b ≤ -((2 ^ 25 - 1) * 2 ^ 252)) :
    fpSum r op a b = 0xFF800000#32 := by
  have hround : fpRound (fpVal a + fpVal b).natAbs 0 = 0x7F800000 := (fpRound_eq_inf_iff _ 0).mpr (by omega)
  rw [fpSum_finite r op ha hb, if_neg (by omega), hround, decide_eq_true (by omega)]
  rfl

theorem fpSum_isFinite (r : NanRule) (op : FpOp) {a b : F32} (ha : fpIsFinite a = true)
    (hb : fpIsFinite b = true) (h : |fpVal a + fpVal b| < (2 ^ 25 - 1) * 2 ^ 252) :
    fpIsFinite (fpSum r op a b) = true := by
  obtain ⟨s, hs, -⟩ := fpSum_eq_pack r op ha hb
  rw [Int.abs_eq_natAbs] at h
  rw [hs, fpIsFinite_pack_fpRound_iff]
  omega

theorem fpSum_exact_zero (r : NanRule) (op : FpOp) {a b : F32} (ha : fpIsFinite a = true)
    (hb : fpIsFinite b = true) (h : fpVal a + fpVal b = 0) :
    fpSum r op a b = if fpSign a = true ∧ fpSign b = true then 0x80000000#32 else 0x00000000#32 := by
  rw [fpSum_finite r op ha hb, if_pos h]
  cases fpSign a <;> cases fpSign b <;> rfl

/-! ### NaN and infinite operands -/

theorem not_nan_of_inf {w : F32} (h : fpIsInf w = true) : fpIsNaN w = false := by
  rw [fpIsInf_iff] at h
  rw [Bool.eq_false_iff, ne_eq, fpIsNaN_iff]
  omega

theorem fpIsInf_neg (w : F32) : fpIsInf (fpNeg w) = fpIsInf w := by
  rw [Bool.eq_iff_iff, fpIsInf_iff, fpIsInf_iff, fpNeg_mod]

theorem fpSum_nan (r : NanRule) (op : FpOp) {a b : F32} (h : fpIsNaN a = true ∨ fpIsNaN b = true) :
    fpIsNaN (fpSum r op a b) = true := by
  simp [fpSum, h]

theorem fpSum_inf_finite (r : NanRule) (op : FpOp) {a b : F32} (ha : fpIsInf a = true) (hb : fpIsFinite b = true) :
    fpSum r op a b = a := by
  simp [fpSum, ha, not_nan_of_inf ha, not_nan_of_finite hb, not_inf_of_finite hb]

theorem fpSum_finite_inf (r : NanRule) (op : FpOp) {a b : F32} (ha : fpIsFinite a = true) (hb : fpIsInf b = true) :
    fpSum r op a b = b := by
  simp [fpSum, hb, not_nan_of_inf hb, not_nan_of_finite ha, not_inf_of_finite ha]

theorem fpSum_inf_same (r : NanRule) (op : FpOp) {a b : F32} (ha : fpIsInf a = true) (hb : fpIsInf b = true)
    (h : fpSign a = fpSign b) : fpSum r op a b = a := by
  simp [fpSum, ha, hb, not_nan_of_inf ha, not_nan_of_inf hb, h]

theorem fpSum_inf_opposite (r : NanRule) (op : FpOp) {a b : F32} (ha : fpIsInf a = true) (hb : fpIsInf b = true)
    (h : fpSign a ≠ fpSign b) : fpIsNaN (fpSum r op a b) = true := by
  simp [fpSum, ha, hb, not_nan_of_inf ha, not_nan_of_inf hb, h]

/-- Settles O45: the sum's cases, and each again for the difference, which is the sum with `-b`. -/
theorem specialSumsFollowIeee754 : Obligations.SpecialSumsFollowIeee754 := by
  intro r a b
  refine ⟨fun h => ⟨fpSum_nan r .add h, fpSum_nan r .sub (by rwa [fpIsNaN_neg]), ?_, ?_⟩, fun ha hb => ?_,
    fun ha hb hs => ?_, fun ha hb hs => ?_, fun ha hb => ?_⟩
  · rcases h with h | h <;> simp [fpGt, h]
  · rcases h with h | h <;> simp [fpEq, h]
  · exact ⟨fpSum_inf_finite r .add ha hb, fpSum_finite_inf r .add hb ha,
      fpSum_inf_finite r .sub ha ((fpIsFinite_neg b).trans hb),
      fpSum_finite_inf r .sub hb ((fpIsInf_neg a).trans ha)⟩
  · exact ⟨fpSum_inf_same r .add ha hb hs,
      fpSum_inf_opposite r .sub ha ((fpIsInf_neg b).trans hb) (by simp [fpSign_neg, hs])⟩
  · exact ⟨fpSum_inf_opposite r .add ha hb hs,
      fpSum_inf_same r .sub ha ((fpIsInf_neg b).trans hb) (by simpa [fpSign_neg, Bool.eq_not] using hs)⟩
  · have hb' : fpIsFinite (fpNeg b) = true := (fpIsFinite_neg b).trans hb
    have hv : fpVal a - fpVal b = fpVal a + fpVal (fpNeg b) := by rw [fpVal_neg, sub_eq_add_neg]
    rw [hv]
    refine ⟨fpSum_overflow_pos r .add ha hb, fpSum_overflow_neg r .add ha hb, fpSum_isFinite r .add ha hb,
      fpSum_exact_zero r .add ha hb, fpSum_overflow_pos r .sub ha hb', fpSum_overflow_neg r .sub ha hb',
      fpSum_isFinite r .sub ha hb', fun h => ?_⟩
    rw [fpSub, fpSum_exact_zero r .sub ha hb' h, fpSign_neg]
    simp only [Bool.not_eq_true']

/-! ### Products -/

theorem fpIsZero_iff_fpVal (w : F32) : fpIsZero w = true ↔ fpVal w = 0 := by
  rw [fpIsZero_iff, ← Int.natAbs_eq_zero, fpVal_natAbs, fpMag_eq]
  exact (fpMagBits_strictMono.injective.eq_iff' rfl).symm

theorem not_zero_of_inf {w : F32} (h : fpIsInf w = true) : fpIsZero w = false := by
  rw [fpIsInf_iff] at h
  rw [Bool.eq_false_iff, ne_eq, fpIsZero_iff]
  omega

theorem finite_of_not_nan_not_inf {w : F32} (hn : fpIsNaN w = false) (hi : fpIsInf w = false) :
    fpIsFinite w = true := by
  rw [Bool.eq_false_iff, ne_eq, fpIsNaN_iff] at hn
  rw [Bool.eq_false_iff, ne_eq, fpIsInf_iff] at hi
  rw [fpIsFinite_iff]
  omega

/-- A product is invalid where a factor is a NaN, or where an infinity meets a zero. -/
def FpMulInvalid (a b : F32) : Prop :=
  fpIsNaN a = true ∨ fpIsNaN b = true ∨ fpIsInf a = true ∧ fpIsZero b = true ∨ fpIsZero a = true ∧ fpIsInf b = true

theorem fpMul_of_invalid (r : NanRule) {a b : F32} (h : FpMulInvalid a b) : fpIsNaN (fpMul r a b) = true := by
  rcases h with h | h | ⟨hi, hz⟩ | ⟨hz, hi⟩
  · simp [fpMul, h]
  · simp [fpMul, h]
  · simp [fpMul, hi, hz]
  · simp [fpMul, hi, hz]

theorem fpMul_of_inf (r : NanRule) {a b : F32} (h : ¬ FpMulInvalid a b) (hi : fpIsInf a = true ∨ fpIsInf b = true) :
    fpMul r a b = fpPack (fpSign a != fpSign b) 0x7F800000 := by
  simp only [FpMulInvalid, not_or, not_and', Bool.not_eq_true] at h
  obtain ⟨ha, hb, hza, hzb⟩ := h
  rcases hi with hi | hi
  · have hz : fpIsZero b = false := by simpa [hi] using hza
    simp [fpMul, ha, hb, hi, hz, not_zero_of_inf hi]
  · have hz : fpIsZero a = false := by simpa [hi] using hzb
    simp [fpMul, ha, hb, hi, hz, not_zero_of_inf hi]

/-- A valid product is an infinity or is rounded; either way it has the sign its factors give and is no NaN. -/
theorem fpMul_of_valid (r : NanRule) {a b : F32} (h : ¬ FpMulInvalid a b) :
    ∃ m ≤ 0x7F800000, fpMul r a b = fpPack (fpSign a != fpSign b) m := by
  by_cases hi : fpIsInf a = true ∨ fpIsInf b = true
  · exact ⟨_, le_rfl, fpMul_of_inf r h hi⟩
  · simp only [FpMulInvalid, not_or, Bool.not_eq_true] at h hi
    exact ⟨_, fpRound_le _ _, fpMul_finite r (finite_of_not_nan_not_inf h.1 hi.1)
      (finite_of_not_nan_not_inf h.2.1 hi.2)⟩

theorem fpMul_isNaN_iff (r : NanRule) (a b : F32) : fpIsNaN (fpMul r a b) = true ↔ FpMulInvalid a b := by
  refine ⟨fun hn => ?_, fpMul_of_invalid r⟩
  by_contra h
  obtain ⟨m, hm, heq⟩ := fpMul_of_valid r h
  rw [heq, fpIsNaN_iff, pack_mod _ (by omega)] at hn
  omega

/-- Settles O46, by whether the product is invalid, and if not whether a factor is infinite. -/
theorem specialProductsFollowIeee754 : Obligations.SpecialProductsFollowIeee754 := by
  intro r a b
  have hvalid : fpIsNaN (fpMul r a b) = false → ¬ FpMulInvalid a b := fun h hi => by
    simp [fpMul_of_invalid r hi] at h
  refine ⟨fpMul_isNaN_iff r a b, fun h => ?_, fun hi h => ?_, fun ha hb => ⟨?_, fun h => ?_⟩⟩
  · obtain ⟨m, hm, heq⟩ := fpMul_of_valid r (hvalid h)
    rw [heq, fpSign_pack _ (by omega)]
  · rw [fpMul_of_inf r (hvalid h) hi, fpIsInf_iff, pack_mod _ (by decide)]
  · rw [fpMul_finite r ha hb, fpIsInf_pack_fpRound_iff, Int.abs_eq_natAbs, Int.natAbs_mul, fpVal_natAbs,
      fpVal_natAbs]
    omega
  · have hmag : fpMag a * fpMag b = 0 := by rw [← fpVal_natAbs, ← fpVal_natAbs, ← Int.natAbs_mul, h]; rfl
    rw [fpMul_finite r ha hb, hmag, fpRound_zero, fpIsZero_iff, pack_mod _ (by decide)]

end Sys2Proof
end

section
/-! The configuration: each constraint of 00_scope R6 to R12 and 41_filter R130, from the model's test to values. -/

namespace Sys2Proof

/-- An infinity is greater than 1.0, so what is not is finite. -/
theorem finite_of_pos_of_le_one {w : F32} (hn : fpIsNaN w = false) (h0 : 0 < fpVal w) (h : fpVal w ≤ 2 ^ 149) :
    fpIsFinite w = true := by
  refine finite_of_not_nan_not_inf hn (Bool.eq_false_iff.mpr fun hi => ?_)
  have hmag : (fpVal w).natAbs = 2 ^ 23 * 2 ^ 254 := by
    rw [fpVal_natAbs, fpMag_eq, (fpIsInf_iff w).mp hi]; rfl
  omega

theorem fpGt_iff {a b : F32} (ha : fpIsNaN a = false) (hb : fpIsNaN b = false) :
    fpGt a b = true ↔ fpVal b < fpVal a := by
  simp [fpGt, ha, hb]

theorem fpEq_iff_of_finite {a b : F32} (ha : fpIsFinite a = true) (hb : fpIsFinite b = true) :
    fpEq a b = true ↔ fpVal a = fpVal b := by
  simp [fpEq, not_nan_of_finite ha, not_nan_of_finite hb]

theorem fpGt_zero_iff (w : F32) : fpGt w F32.zero = true ↔ fpIsNaN w = false ∧ 0 < fpVal w := by
  have hnan : fpIsNaN F32.zero = false := by decide
  have hval : fpVal F32.zero = 0 := by decide
  simp [fpGt, hnan, hval]

theorem tapCountValid_iff (c : Config) : c.tapCountValid = true ↔ c.tapCount % 2 = 1 ∧ 3 ≤ c.tapCount := by
  simp [Config.tapCountValid]

/-- 41_filter R130 on values: with every tap finite, IEEE equality is equality of values. -/
theorem tapsValid_iff (c : Config) : c.tapsValid = true ↔
    (∀ k < c.tapCount, fpIsFinite (c.tap k) = true ∧ fpVal (c.tap k) = fpVal (c.tap (c.tapCount - 1 - k))) ∧
    (∀ k < c.tapCount, k ≠ c.centre → k % 2 = c.centre % 2 → fpVal (c.tap k) = 0) ∧
    fpVal (c.tap c.centre) ≠ 0 := by
  simp only [Config.tapsValid, Bool.and_eq_true, List.all_eq_true, List.mem_range, Bool.or_eq_true, beq_iff_eq,
    Bool.not_eq_true', ← Bool.not_eq_true, fpIsZero_iff_fpVal]
  have hodd (k : Nat) : (k + c.centre) % 2 = 1 ↔ ¬ k % 2 = c.centre % 2 := by omega
  have hsym (hfin : ∀ k < c.tapCount, fpIsFinite (c.tap k) = true) (k : Nat) (hk : k < c.tapCount) :
      fpEq (c.tap k) (c.tap (c.tapCount - 1 - k)) = true ↔ fpVal (c.tap k) = fpVal (c.tap (c.tapCount - 1 - k)) :=
    fpEq_iff_of_finite (hfin k hk) (hfin _ (by omega))
  constructor
  · rintro ⟨⟨⟨heq, hzero⟩, hfin⟩, hcentre⟩
    refine ⟨fun k hk => ⟨hfin k hk, (hsym hfin k hk).mp (heq k hk)⟩, fun k hk hne hpar => ?_, hcentre⟩
    simpa [hne, hodd, hpar] using hzero k hk
  · rintro ⟨htaps, hzero, hcentre⟩
    have hfin := fun k hk => (htaps k hk).1
    refine ⟨⟨⟨fun k hk => (hsym hfin k hk).mpr (htaps k hk).2, fun k hk => ?_⟩, hfin⟩, hcentre⟩
    by_cases hne : k = c.centre
    · simp [hne]
    · by_cases hpar : k % 2 = c.centre % 2
      · exact .inr (hzero k hk hne hpar)
      · exact .inl (.inr ((hodd k).mpr hpar))

/-- 00_scope R9: the bounds 0 and 1 leave no NaN and no infinity. -/
theorem smoothingValid_iff (c : Config) : c.smoothingValid = true ↔
    fpIsFinite c.attack = true ∧ fpIsFinite c.release = true ∧
    0 < fpVal c.release ∧ fpVal c.release ≤ fpVal c.attack ∧ fpVal c.attack ≤ 2 ^ 149 := by
  have hone : fpVal 0x3F800000#32 = 2 ^ 149 := by decide
  simp only [Config.smoothingValid, Bool.and_eq_true, Bool.not_eq_true', fpGt_zero_iff]
  constructor
  · rintro ⟨⟨⟨⟨hrn, hr0⟩, han⟩, hra⟩, ha1⟩
    rw [← Bool.not_eq_true, fpGt_iff hrn han] at hra
    rw [← Bool.not_eq_true, fpGt_iff han (by decide), hone] at ha1
    exact ⟨finite_of_pos_of_le_one han (by omega) (by omega), finite_of_pos_of_le_one hrn hr0 (by omega), hr0,
      by omega, by omega⟩
  · rintro ⟨haf, hrf, hr0, hra, ha1⟩
    have han := not_nan_of_finite haf
    have hrn := not_nan_of_finite hrf
    refine ⟨⟨⟨⟨hrn, hr0⟩, han⟩, ?_⟩, ?_⟩
    · rw [← Bool.not_eq_true, fpGt_iff hrn han]; omega
    · rw [← Bool.not_eq_true, fpGt_iff han (by decide), hone]; omega

theorem log2NValid_iff (c : Config) : c.log2NValid = true ↔ 3 ≤ c.log2N ∧ c.log2N ≤ 23 := by
  simp [Config.log2NValid]

theorem levelInitValid_iff (c : Config) :
    c.levelInitValid = true ↔ fpIsFinite c.levelInit = true ∧ 0 < fpVal c.levelInit := by
  rw [Config.levelInitValid, Bool.and_eq_true, fpGt_zero_iff]
  exact and_congr_right fun h => and_iff_right (not_nan_of_finite h)

theorem minInValid_iff (c : Config) : c.minInValid = true ↔ c.minIn % 2 = 0 ∧ 2 ≤ c.minIn := by
  simp [Config.minInValid]

theorem readTimeoutValid_iff (c : Config) : c.readTimeoutValid = true ↔ 0 < c.readTimeout := by
  simp [Config.readTimeoutValid]

/-- The hardware's values are kept only where they are valid, and EX7, which stands in otherwise, is. -/
theorem hardware_valid : Config.hardware.valid = true := by
  unfold Config.hardware
  split
  · assumption
  · decide +kernel

/-- Settles O2, constraint by constraint. -/
theorem hardwareConfigurationMeetsConstraints : Obligations.HardwareConfigurationMeetsConstraints := by
  refine ⟨hardware_valid, fun c => ?_⟩
  simp only [Config.valid, Bool.and_eq_true, tapCountValid_iff, tapsValid_iff, log2NValid_iff, smoothingValid_iff,
    levelInitValid_iff, minInValid_iff, readTimeoutValid_iff, and_assoc]

end Sys2Proof
end

section
/-! The step that runs a command. -/

namespace Sys2Proof.Machine

/-- A command that decodes runs as its instruction. -/
theorem runCommand_of_decode {c : Command} {i : Instr} (h : decode c = .ok i) (s : State) :
    runCommand c s = exec i s := by
  simp [runCommand, h]

/-- Settles O14: the port takes its command (`step_takes`), and what it takes decodes. -/
theorem stepRunsDecodedCommand : Obligations.StepRunsDecodedCommand := by
  intro s p ps c cs i hs hp hi hd
  rw [step_takes hs hp hi, runCommand_of_decode hd]

end Sys2Proof.Machine
end

section
/-! What a decoded command's word is, and what a step does to each part of the state (10_state R33 to R37): first for a
turn's effect on the state in which its port is active, then for the step. The statements about the state follow. -/

namespace Sys2Proof

@[simp] theorem Opcode.opcode_instr (o : Opcode) (arg : BitVec 24) (words : List Word) (bytes : List Byte) :
    (o.instr arg words bytes).opcode = o := by
  cases o <;> rfl

/-- Everything the decoder asks of a command that it accepts (30_encoding R79), and the instruction it reads. -/
theorem decode_ok {c : Command} {i : Instr} (h : decode c = .ok i) :
    ∃ o arg, c.word = commandWord o arg ∧ (o.format ≠ .l → arg = 0) ∧ c.payloadFits = true ∧
      i = o.instr arg c.words c.bytes := by
  unfold decode at h
  split at h
  · rename_i hfits
    split at h
    · cases h
    · rename_i o ho
      split at h
      · cases h
      · rename_i harg
        injection h with h
        exact ⟨o, argField c.word, (commandWord_of_fields (code_of_opcodeOf ho)).symm,
          fun hf => not_not.mp fun ha => harg ⟨hf, ha⟩, hfits, h.symm⟩
  · cases h

/-- Only one word decodes to FIFO.RESET, the one that 30_encoding R77 gives it. -/
theorem word_of_decode_fifoReset {c : Command} (h : decode c = .ok .fifoReset) : c.word = 0x20000000#32 := by
  obtain ⟨o, arg, hword, harg, -, hi⟩ := decode_ok h
  obtain rfl : .fifoReset = o := (congrArg Instr.opcode hi).trans (Opcode.opcode_instr ..)
  rw [hword, harg (by decide)]
  decide

/-- A value is negative where its sign is set and it is not a zero. -/
theorem fpVal_neg_iff (w : F32) : fpVal w < 0 ↔ fpSign w = true ∧ fpIsZero w = false := by
  rw [← Bool.not_eq_true, fpIsZero_iff_fpVal]
  unfold fpVal
  cases hs : fpSign w <;> simp [Nat.pos_iff_ne_zero]

theorem Config.capacity_pos (c : Config) : 0 < c.capacity := Nat.two_pow_pos _

namespace Machine

/-- LT_CONTRACT as 42_level_tracker R165 words it: a NaN, or a negative power that is not `-0.0`. -/
theorem outOfContract_iff (p : F32) :
    outOfContract p = true ↔ fpIsNaN p = true ∨ fpSign p = true ∧ fpIsZero p = false := by
  have hnan : fpIsNaN F32.zero = false := by decide
  have hval : fpVal F32.zero = 0 := by decide
  cases hp : fpIsNaN p <;> simp [outOfContract, fpGt, hnan, hval, hp, fpVal_neg_iff]

/-- What a turn can do in the state `s` in which its port is active and has taken its command: nothing, end the command
ILLEGAL, have the effect of a command that the port may issue, or end the consumer's wait. -/
inductive TurnEffect (s t : State) : Prop
  | idle (h : t = s)
  | illegal (h : t = s.completeIllegal)
  | command (i : Instr) (hport : s.active ∈ i.opcode.ports) (h : Effect s t i)
  | readDone (len : BitVec 24) (hport : s.active = .consumer) (h : ReadDone len s t)
  | timedOut (hport : s.active = .consumer)
      (h : t = { s with rdwait := none, results := s.answered ⟨.timeout, 0, .none⟩ })

/-- The port whose turn the next step takes: the step where no turn is left counts as port C's (log 7). -/
def State.turn (s : State) : Port := s.sched.headD .consumer

theorem State.turn_eq {s : State} {p : Port} (h : (∃ ps, s.sched = p :: ps) ∨ s.sched = [] ∧ p = .consumer) :
    s.turn = p := by
  obtain ⟨ps, hs⟩ | ⟨hs, rfl⟩ := h <;> simp [State.turn, hs]

/-- A step has the effect of its port's turn; or nothing is left to do. -/
theorem step_turnEffect {s t : State} (h : step s = .next t) :
    t = s ∨ ∃ ps box, TurnEffect { s with sched := ps, active := s.turn, inbox := box } t := by
  obtain ⟨-, -, ht⟩ | ⟨len, hs, -, hend⟩ | ⟨p, ps, hs, -, -, ht⟩ | ⟨p, ps, c, cs, hs, -, -, hrun⟩ := step_next h
  · exact .inl ht
  · rw [State.turn_eq (hs.symm.imp_right fun hs => ⟨hs, rfl⟩)]
    refine .inr ⟨s.sched.tail, s.inbox, ?_⟩
    obtain hdone | ⟨-, ht⟩ := endWait_next hend
    · exact .readDone len rfl hdone
    · exact .timedOut rfl ht
  · rw [State.turn_eq (.inl ⟨ps, hs⟩)]
    exact .inr ⟨ps, s.inbox, .idle ht⟩
  · rw [State.turn_eq (.inl ⟨ps, hs⟩)]
    refine .inr ⟨ps, s.inbox.set p cs, ?_⟩
    obtain ⟨i, -, hexec⟩ | ⟨-, -, -, ht⟩ := hrun
    · obtain ⟨-, ht⟩ | ⟨hport, heff⟩ := exec_next hexec
      · exact .illegal ht
      · exact .command i hport heff
    · exact .illegal ht

/-! ### The model faults -/

/-- Only LT.UPDATE and FIFO.RESET record a model fault, and when (60_exceptions R207). -/
theorem Effect.faults {i : Instr} {s t : State} (h : Effect s t i) :
    t.faults = s.faults ∨
    (∃ p, i = .ltUpdate p ∧ outOfContract p = true ∧ t.faults = s.faults.insert .ltContract) ∨
    (i = .fifoReset ∧ s.rdwait ≠ none ∧ t.faults = s.faults.insert .resetRace) := by
  cases i with
  | ltUpdate p =>
    subst h
    by_cases hp : outOfContract p = true
    · exact .inr (.inl ⟨p, rfl, hp, if_pos hp⟩)
    · exact .inl (if_neg hp)
  | fifoReset =>
    subst h
    by_cases hr : s.rdwait = none
    · exact .inl (if_pos hr)
    · exact .inr (.inr ⟨rfl, hr, if_neg hr⟩)
  | firReset | ltReset | ltRead | fifoAvailRd | fifoAvailWr => subst h; exact .inl rfl
  | firProcess => obtain ⟨-, rfl⟩ | ⟨-, rfl⟩ := h <;> exact .inl rfl
  | fifoWrite => obtain ⟨-, rfl⟩ | ⟨-, -, rfl⟩ | ⟨-, -, rfl⟩ := h <;> exact .inl rfl
  | fifoRead => obtain ⟨-, rfl⟩ | ⟨-, -, -, -, rfl⟩ | ⟨-, rfl⟩ := h <;> exact .inl rfl
  | pipeProcess => obtain ⟨-, rfl⟩ | ⟨-, -, -, -, -, ⟨-, rfl⟩ | ⟨-, rfl⟩⟩ := h <;> exact .inl rfl

/-- What a step can do to the fault set. -/
theorem step_faults {s t : State} (h : step s = .next t) :
    t.faults = s.faults ∨
    (∃ ps c cs p, s.sched = .producer :: ps ∧ s.inbox.producer = c :: cs ∧ decode c = .ok (.ltUpdate p) ∧
      outOfContract p = true ∧ t.faults = s.faults.insert .ltContract) ∨
    (∃ ps c cs, s.sched = .control :: ps ∧ s.inbox.control = c :: cs ∧ decode c = .ok .fifoReset ∧
      s.rdwait ≠ none ∧ t.faults = s.faults.insert .resetRace) := by
  obtain ⟨-, -, rfl⟩ | ⟨len, -, -, hend⟩ | ⟨p, ps, -, -, -, rfl⟩ | ⟨p, ps, c, cs, hs, -, hi, hrun⟩ := step_next h
  · exact .inl rfl
  · obtain ⟨-, -, -, rfl⟩ | ⟨-, rfl⟩ := endWait_next hend <;> exact .inl rfl
  · exact .inl rfl
  · obtain ⟨i, hd, hexec⟩ | ⟨-, -, -, rfl⟩ := hrun
    · obtain ⟨-, rfl⟩ | ⟨hport, heff⟩ := exec_next hexec
      · exact .inl rfl
      · obtain hf | ⟨x, rfl, hx, hf⟩ | ⟨rfl, hr, hf⟩ := heff.faults
        · exact .inl hf
        · obtain rfl : p = .producer := List.mem_singleton.mp hport
          exact .inr (.inl ⟨ps, c, cs, x, hs, hi, hd, hx, hf⟩)
        · obtain rfl : p = .control := List.mem_singleton.mp hport
          exact .inr (.inr ⟨ps, c, cs, hs, hi, hd, hr, hf⟩)
    · exact .inl rfl

theorem step_keeps_faults {s t : State} (h : step s = .next t) (f : ModelFault) (hf : s.faults.has f = true) :
    t.faults.has f = true := by
  obtain ht | ⟨-, -, -, -, -, -, -, -, ht⟩ | ⟨-, -, -, -, -, -, -, ht⟩ := step_faults h <;> simp [ht, hf]

/-! ### The histories -/

/-- At most one result record more, on the active port, and the events of one step, in the order of 60_exceptions
R209. -/
structure HistoriesGrow (s t : State) : Prop where
  results : t.results = s.results ∨ ∃ r, t.results = s.answered r
  events : ∃ es, t.events = s.events ++ es ∧
    (es = [] ∨ (∃ e, es = [e]) ∨ (∃ l n, es = [.level l, .occ n]) ∨ ∃ l b n, es = [.level l, .drop b n])

section
variable {s t : State} {r : Result}

theorem HistoriesGrow.refl (hr : t.results = s.results) (he : t.events = s.events) : HistoriesGrow s t :=
  ⟨.inl hr, [], by simp [he], .inl rfl⟩

theorem HistoriesGrow.record (hr : t.results = s.answered r) (he : t.events = s.events) : HistoriesGrow s t :=
  ⟨.inr ⟨r, hr⟩, [], by simp [he], .inl rfl⟩

theorem HistoriesGrow.recordEvent {e : Event} (hr : t.results = s.answered r) (he : t.events = s.events ++ [e]) :
    HistoriesGrow s t :=
  ⟨.inr ⟨r, hr⟩, [e], he, .inr (.inl ⟨e, rfl⟩)⟩

end

theorem ReadDone.historiesGrow {len : BitVec 24} {s t : State} (h : ReadDone len s t) : HistoriesGrow s t := by
  obtain ⟨-, bs, -, rfl⟩ := h
  exact .recordEvent rfl rfl

/-- A command leaves one result record, unless it is a read that starts to wait, and only PIPE.PROCESS emits two
events. -/
theorem Effect.historiesGrow {i : Instr} {s t : State} (h : Effect s t i) : HistoriesGrow s t := by
  cases i with
  | firReset | ltRead | fifoAvailRd | fifoAvailWr => subst h; exact .record rfl rfl
  | ltReset | ltUpdate => subst h; exact .recordEvent rfl rfl
  | firProcess => obtain ⟨-, rfl⟩ | ⟨-, rfl⟩ := h <;> exact .record rfl rfl
  | fifoReset =>
    subst h
    by_cases hc : s.count = 0
    · exact .record rfl (if_pos hc)
    · exact .recordEvent rfl (if_neg hc)
  | fifoWrite =>
    obtain ⟨-, rfl⟩ | ⟨-, -, rfl⟩ | ⟨-, -, rfl⟩ := h
    · exact .record rfl rfl
    · exact .recordEvent rfl rfl
    · exact .recordEvent rfl rfl
  | fifoRead =>
    obtain ⟨-, rfl⟩ | ⟨-, hdone⟩ | ⟨-, rfl⟩ := h
    · exact .record rfl rfl
    · exact hdone.historiesGrow
    · exact .refl rfl rfl
  | pipeProcess =>
    obtain ⟨-, rfl⟩ | ⟨-, ys, l, -, -, ⟨-, rfl⟩ | ⟨-, rfl⟩⟩ := h
    · exact .record rfl rfl
    · exact ⟨.inr ⟨_, rfl⟩, _, rfl, .inr (.inr (.inr ⟨_, _, _, rfl⟩))⟩
    · exact ⟨.inr ⟨_, rfl⟩, _, rfl, .inr (.inr (.inl ⟨_, _, rfl⟩))⟩

theorem TurnEffect.historiesGrow {s t : State} (h : TurnEffect s t) : HistoriesGrow s t := by
  cases h with
  | idle h => subst h; exact .refl rfl rfl
  | illegal h | timedOut _ h => subst h; exact .record rfl rfl
  | command i _ h => exact h.historiesGrow
  | readDone len _ h => exact h.historiesGrow

/-- What a step appends is what its turn appends, in the state in which its port is active. -/
theorem step_historiesGrow {s t : State} (h : step s = .next t) :
    HistoriesGrow { s with active := s.turn } t := by
  obtain rfl | ⟨ps, box, hturn⟩ := step_turnEffect h
  · exact .refl rfl rfl
  · exact ⟨hturn.historiesGrow.results, hturn.historiesGrow.events⟩

theorem State.answered_grows (s : State) (r : Result) (p : Port) :
    ∃ rs, (s.answered r).get p = s.results.get p ++ rs := by
  rw [State.answered_get]
  split
  · exact ⟨[r], rfl⟩
  · exact ⟨[], by simp⟩

theorem HistoriesGrow.results_get {s t : State} (h : HistoriesGrow s t) (p : Port) :
    ∃ rs, t.results.get p = s.results.get p ++ rs := by
  obtain ht | ⟨r, ht⟩ := h.results
  · exact ⟨[], by simp [ht]⟩
  · exact ht ▸ s.answered_grows r p

/-- Settles O17: the fault set by `step_keeps_faults`, the histories by `step_historiesGrow`. -/
theorem faultsAndHistoriesOnlyGrow : Obligations.FaultsAndHistoriesOnlyGrow := by
  intro s t h
  have hgrow := step_historiesGrow h
  exact ⟨step_keeps_faults h, hgrow.results_get, hgrow.events⟩

/-! ### The writers of each field -/

/-- What a turn of a port keeps of the data, by the column "written by" of 10_state R37. -/
def PortFrame (s t : State) : Port → Prop
  | .producer => t.tail = s.tail ∧ t.rdwait = s.rdwait ∧ s.count ≤ t.count
  | .consumer => t.hist = s.hist ∧ t.level = s.level ∧ t.buf = s.buf ∧ t.head = s.head ∧ t.count ≤ s.count
  | .control => t.hist = s.hist ∧ t.level = s.level ∧ t.buf = s.buf ∧ t.rdwait = s.rdwait ∧
      (t.count = s.count ∨ t.count = 0)

/-- A turn that leaves the data as it is. -/
theorem PortFrame.of_eq {s t : State} (p : Port) (hh : t.hist = s.hist) (hl : t.level = s.level) (hb : t.buf = s.buf)
    (hd : t.head = s.head) (hc : t.count = s.count) (ht : t.tail = s.tail) (hr : t.rdwait = s.rdwait) :
    PortFrame s t p := by
  cases p with
  | producer => exact ⟨ht, hr, hc.ge⟩
  | consumer => exact ⟨hh, hl, hb, hd, hc.le⟩
  | control => exact ⟨hh, hl, hb, hr, .inl hc⟩

theorem ReadDone.portFrame {len : BitVec 24} {s t : State} (h : ReadDone len s t) : PortFrame s t .consumer := by
  obtain ⟨-, bs, -, rfl⟩ := h
  exact ⟨rfl, rfl, rfl, rfl, Nat.sub_le _ _⟩

/-- Each command keeps what the frame of a port that may issue it keeps. -/
theorem Effect.portFrame {i : Instr} {s t : State} (hport : s.active ∈ i.opcode.ports) (h : Effect s t i) :
    PortFrame s t s.active := by
  cases i with
  | ltRead | fifoAvailRd | fifoAvailWr => subst h; exact .of_eq _ rfl rfl rfl rfl rfl rfl rfl
  | firReset | ltReset | ltUpdate =>
    rw [List.mem_singleton.mp hport]
    subst h
    exact ⟨rfl, rfl, le_rfl⟩
  | firProcess =>
    rw [List.mem_singleton.mp hport]
    obtain ⟨-, rfl⟩ | ⟨-, rfl⟩ := h <;> exact ⟨rfl, rfl, le_rfl⟩
  | fifoWrite =>
    rw [List.mem_singleton.mp hport]
    obtain ⟨-, rfl⟩ | ⟨-, -, rfl⟩ | ⟨-, -, rfl⟩ := h
    · exact ⟨rfl, rfl, le_rfl⟩
    · exact ⟨rfl, rfl, le_rfl⟩
    · exact ⟨rfl, rfl, Nat.le_add_right _ _⟩
  | pipeProcess =>
    rw [List.mem_singleton.mp hport]
    obtain ⟨-, rfl⟩ | ⟨-, ys, l, -, -, ⟨-, rfl⟩ | ⟨-, rfl⟩⟩ := h
    · exact ⟨rfl, rfl, le_rfl⟩
    · exact ⟨rfl, rfl, le_rfl⟩
    · exact ⟨rfl, rfl, Nat.le_add_right _ _⟩
  | fifoReset =>
    rw [List.mem_singleton.mp hport]
    subst h
    exact ⟨rfl, rfl, rfl, rfl, .inr rfl⟩
  | fifoRead =>
    rw [List.mem_singleton.mp hport]
    obtain ⟨-, rfl⟩ | ⟨-, hdone⟩ | ⟨-, rfl⟩ := h
    · exact ⟨rfl, rfl, rfl, rfl, le_rfl⟩
    · exact hdone.portFrame
    · exact ⟨rfl, rfl, rfl, rfl, le_rfl⟩

theorem TurnEffect.portFrame {s t : State} (h : TurnEffect s t) : PortFrame s t s.active := by
  cases h with
  | idle h | illegal h => subst h; exact .of_eq _ rfl rfl rfl rfl rfl rfl rfl
  | command i hport h => exact h.portFrame hport
  | readDone len hport h => exact hport ▸ h.portFrame
  | timedOut hport h => rw [hport]; subst h; exact ⟨rfl, rfl, rfl, rfl, le_rfl⟩

/-- A step keeps the frame of the port whose turn it is. -/
theorem step_portFrame {s t : State} (h : step s = .next t) : PortFrame s t s.turn := by
  obtain rfl | ⟨ps, box, hturn⟩ := step_turnEffect h
  · exact .of_eq _ rfl rfl rfl rfl rfl rfl rfl
  · have hframe := hturn.portFrame
    dsimp only at hframe
    cases hp : s.turn <;> exact hp ▸ hframe

/-- Settles O18: what is outside a port's frame is that port's to write. -/
theorem eachFieldHasItsWriterPorts : Obligations.EachFieldHasItsWriterPorts := by
  intro s t p hp h
  have hframe := State.turn_eq hp ▸ step_portFrame h
  cases p with
  | producer =>
    obtain ⟨htail, hwait, hcount⟩ := hframe
    simp [htail, hwait, hcount]
  | consumer =>
    obtain ⟨hhist, hlevel, hbuf, hhead, hcount⟩ := hframe
    simp [hhist, hlevel, hbuf, hhead, hcount]
  | control =>
    obtain ⟨hhist, hlevel, hbuf, hwait, hcount⟩ := hframe
    simp [hhist, hlevel, hbuf, hwait, hcount]

/-! ### The contract, and the invariant at reset -/

/-- Under `QuiescentReset` no read waits where the control port is about to run FIFO.RESET (70_reset R235). -/
theorem rdwait_of_quiescentReset {s : State} {ps : List Port} {c : Command} {cs : List Command}
    (h : s.quiescentReset = true) (hs : s.sched = .control :: ps) (hi : s.inbox.control = c :: cs)
    (hd : decode c = .ok .fifoReset) : s.rdwait = none := by
  simpa [State.quiescentReset, hs, hi, word_of_decode_fifoReset hd] using h

/-- Settles O21: of the two ways in which a step records a fault (`step_faults`), the contract shuts out each. -/
theorem stepWithinContractRecordsNoFault : Obligations.StepWithinContractRecordsNoFault := by
  intro s t h hno hquiet hpower
  obtain hf | ⟨ps, c, cs, p, hs, hi, hd, hp, -⟩ | ⟨ps, c, cs, hs, hi, hd, hr, -⟩ := step_faults h
  · rwa [State.noFault, hf]
  · obtain ⟨hnan, hzero⟩ := hpower ps c cs p hs hi hd
    obtain hp | ⟨hsign, hp⟩ := (outOfContract_iff p).mp hp
    · simp [hnan] at hp
    · simp [hzero hsign] at hp
  · exact absurd (rdwait_of_quiescentReset hquiet hs hi hd) hr

/-- At power-on the FIFO is empty and the history is `T` zeros (70_reset R230). -/
theorem powerOn_inv {c : Config} (h : c.valid = true) : (State.powerOn c).Inv where
  cfg_valid := h
  hist_length := List.length_replicate
  buf_wf := rfl
  buf_bound := by simp [State.powerOn]
  head_lt := Config.capacity_pos c
  tail_lt := Config.capacity_pos c
  count_le := Nat.zero_le _
  head_eq := (Nat.zero_mod _).symm
  valid_written := by simp [State.powerOn]
  wait_positive := by simp [State.powerOn]

/-- Settles O3: reset is power-on under the hardware's configuration, which is valid. -/
theorem resetMeetsInvariant : Obligations.ResetMeetsInvariant :=
  ⟨powerOn_inv hardware_valid, fun _ => powerOn_inv⟩

end Machine

end Sys2Proof
end

section
/-! The FIFO storage as a queue of bytes (20_memory R55, R66): serialization, that no step reads an `Unwritten` cell,
and what each operation does to the list of valid bytes. -/

namespace Sys2Proof.Machine

/-! ### Serialization -/

/-- Byte `b` of `le32` is bits `8b+7..8b` of the word (20_memory R54). -/
theorem le32_getElem? (w : Word) {b : Nat} (hb : b < 4) :
    (le32 w)[b]? = some (BitVec.ofNat 8 (w.toNat / 256 ^ b)) := by
  have hbyte : BitVec.ofNat 8 (w.toNat / 256 ^ b) = w.extractLsb' (8 * b) 8 := by
    rw [BitVec.extractLsb', Nat.shiftRight_eq_div_pow, Nat.pow_mul]
  rw [hbyte]
  interval_cases b <;> rfl

/-- The first sample's bytes come first. -/
theorem ser_cons_getElem?_i (y : Sample) (ys : List Sample) {b : Nat} (hb : b < 4) :
    (ser (y :: ys))[b]? = (le32 y.i)[b]? := by
  rw [ser_cons, List.append_assoc]
  exact List.getElem?_append_left hb

theorem ser_cons_getElem?_q (y : Sample) (ys : List Sample) {b : Nat} (hb : b < 4) :
    (ser (y :: ys))[4 + b]? = (le32 y.q)[b]? := by
  rw [ser_cons, List.getElem?_append_left (show 4 + b < 8 by omega), Nat.add_comm]
  rfl

/-- The later samples' bytes follow after 8. -/
theorem ser_cons_getElem?_add (y : Sample) (ys : List Sample) (k : Nat) :
    (ser (y :: ys))[k + 8]? = (ser ys)[k]? := rfl

/-- Sample `n` starts at byte `8n`. -/
theorem ser_getElem? {ys : List Sample} {n : Nat} {y : Sample} (h : ys[n]? = some y) {b : Nat} (hb : b < 4) :
    (ser ys)[8 * n + b]? = (le32 y.i)[b]? ∧ (ser ys)[8 * n + 4 + b]? = (le32 y.q)[b]? := by
  induction ys generalizing n with
  | nil => cases h
  | cons x xs ih =>
    cases n with
    | zero =>
      obtain rfl : x = y := Option.some.inj h
      simpa using ⟨ser_cons_getElem?_i x xs hb, ser_cons_getElem?_q x xs hb⟩
    | succ n =>
      rw [show 8 * (n + 1) + b = 8 * n + b + 8 by omega, show 8 * (n + 1) + 4 + b = 8 * n + 4 + b + 8 by omega,
        ser_cons_getElem?_add, ser_cons_getElem?_add]
      exact ih h

/-- Settles O56: sample `n`'s two words lie at `8n` and `8n+4` (`ser_getElem?`), each the low byte first. -/
theorem samplesAreSerializedLittleEndian : Obligations.SamplesAreSerializedLittleEndian := by
  intro ys
  refine ⟨ser_length ys, fun n y h b hb => ?_⟩
  rw [← le32_getElem? y.i hb, ← le32_getElem? y.q hb]
  exact ser_getElem? h hb

/-! ### No step reads an `Unwritten` cell -/

/-- The step in which the consumer's wait ends, at its turn or where no turn is left (log 7). -/
theorem step_endsWait {s : State} {len : BitVec 24} (hr : s.rdwait = some len)
    (hs : s.sched = [] ∨ ∃ ps, s.sched = .consumer :: ps) :
    step s = endWait len { s with sched := s.sched.tail, active := .consumer } := by
  obtain hs | ⟨ps, hs⟩ := hs
  · simp [step, quiesce, hs, hr]
  · simp [step, takeTurn, hs, hr]

/-- The step where no turn is left and no read waits (log 8). -/
theorem step_without_turn {s : State} (hs : s.sched = []) (hr : s.rdwait = none) : step s = .next s := by
  simp [step, quiesce, hs, hr]

/-- The step where the port has no command to take (log 8). -/
theorem step_without_command {s : State} {p : Port} {ps : List Port} (hs : s.sched = p :: ps)
    (hp : p = .consumer → s.rdwait = none) (hi : s.inbox.get p = []) :
    step s = .next { s with sched := ps, active := p } := by
  have hturn := takeTurn_takes (s := { s with sched := ps }) hp
  simp [step, hs, hturn, takeCommand, hi]

theorem decode_payloadMismatch {c : Command} (h : decode c = .error .payloadMismatch) : c.payloadFits = false := by
  by_contra hfits
  rw [decode, if_pos (by simpa using hfits)] at h
  split at h
  · cases h
  · split at h <;> cases h

section
variable {s : State} (hw : ∀ j < s.count, (Memory.read s.buf ((s.tail + j) % s.capacity)).isSome = true)
include hw

/-- A read is the one command that needs the valid cells to be written (20_memory R66). -/
theorem exec_answers_of_written (i : Instr) : ∃ t, exec i s = .next t := by
  by_cases hi : ∃ len, i = .fifoRead len
  · obtain ⟨len, rfl⟩ := hi
    exact execFifoRead_answers hw
  · exact exec_answers (.inl (not_exists.mp hi))

theorem endWait_answers_of_written (len : BitVec 24) : ∃ t, endWait len s = .next t := by
  by_cases hlen : len.toNat ≤ s.count
  · obtain ⟨bs, -, hread⟩ := completeRead_of_written hlen rfl hw
    exact ⟨_, (if_pos hlen).trans hread⟩
  · exact ⟨_, if_neg hlen⟩

/-- A taken command completes, or its payload is not the one its word fixes (30_encoding R75). -/
theorem runCommand_answers_of_written (c : Command) :
    (∃ t, runCommand c s = .next t) ∨
    c.payloadFits = false ∧ runCommand c s = .refused (.payloadMismatch s.active c.word) := by
  unfold runCommand
  match hd : decode c with
  | .ok i => exact .inl (exec_answers_of_written hw i)
  | .error .payloadMismatch => exact .inr ⟨decode_payloadMismatch hd, rfl⟩
  | .error .reservedOp | .error .nonZeroArg => exact .inl ⟨_, rfl⟩

/-- Every step where the valid cells are written: it answers a next state, or refuses a command still to come for its
payload. -/
theorem step_answers_of_written :
    (∃ t, step s = .next t) ∨
    ∃ p, ∃ c ∈ s.inbox.get p, c.payloadFits = false ∧ step s = .refused (.payloadMismatch p c.word) := by
  by_cases hwait : ∃ len, s.rdwait = some len ∧ (s.sched = [] ∨ ∃ ps, s.sched = .consumer :: ps)
  · obtain ⟨len, hr, hs⟩ := hwait
    rw [step_endsWait hr hs]
    exact .inl (endWait_answers_of_written (s := { s with sched := s.sched.tail, active := .consumer }) hw len)
  · match hs : s.sched with
    | [] =>
      have hr : s.rdwait = none := Option.eq_none_iff_forall_ne_some.mpr fun len hr => hwait ⟨len, hr, .inl hs⟩
      exact .inl ⟨s, step_without_turn hs hr⟩
    | p :: ps =>
      have hp : p = .consumer → s.rdwait = none := by
        rintro rfl
        exact Option.eq_none_iff_forall_ne_some.mpr fun len hr => hwait ⟨len, hr, .inr ⟨ps, hs⟩⟩
      match hi : s.inbox.get p with
      | [] =>
        exact .inl ⟨_, step_without_command hs hp hi⟩
      | c :: cs =>
        rw [step_takes hs hp hi]
        refine (runCommand_answers_of_written (s := { s with sched := ps, active := p, inbox := _ }) hw c).imp_right
          fun h => ⟨p, c, ?_, h⟩
        simp [hi]

end

theorem payloadFits_of_inboxFits {s : State} (h : s.inboxFits = true) {p : Port} {c : Command}
    (hc : c ∈ s.inbox.get p) : c.payloadFits = true := by
  simp only [State.inboxFits, Bool.and_eq_true, List.all_eq_true] at h
  obtain ⟨⟨hproducer, hconsumer⟩, hcontrol⟩ := h
  cases p with
  | producer => exact hproducer c hc
  | consumer => exact hconsumer c hc
  | control => exact hcontrol c hc

/-- Settles O16: the invariant has the valid cells written, and then `step_answers_of_written` says how a step ends. -/
theorem noStepReadsUnwrittenCell : Obligations.NoStepReadsUnwrittenCell := by
  intro s hinv
  obtain ⟨t, ht⟩ | ⟨p, c, hc, hfits, hstep⟩ := step_answers_of_written hinv.valid_written
  · simp [ht]
  · refine ⟨by simp [hstep], .inr ⟨p, c.word, hstep⟩, fun hall => ?_⟩
    simp [payloadFits_of_inboxFits hall hc] at hfits

/-! ### The queue of valid bytes -/

@[simp] theorem State.validBytes_length (s : State) : s.validBytes.length = s.count := by
  simp [State.validBytes]

theorem State.validBytes_getElem? (s : State) {j : Nat} (hj : j < s.count) :
    s.validBytes[j]? = some ((Memory.read s.buf ((s.tail + j) % s.capacity)).getD 0) := by
  simp [State.validBytes, hj]

theorem State.validBytes_of_count_zero {s : State} (h : s.count = 0) : s.validBytes = [] :=
  List.eq_nil_of_length_eq_zero (s.validBytes_length.trans h)

/-- The queue is made of the storage, `tail` and `count` alone, given the configuration. -/
theorem State.validBytes_congr {s t : State} (hb : t.buf = s.buf) (ht : t.tail = s.tail) (hc : t.count = s.count)
    (hcfg : t.cfg = s.cfg) : t.validBytes = s.validBytes := by
  simp only [State.validBytes, State.capacity, hb, ht, hc, hcfg]

/-- A write that fits appends its bytes: none of its offsets holds a valid byte. -/
theorem State.validBytes_push {s t : State} {bs : List Byte} (hinv : s.Inv) (hfits : bs.length ≤ s.free)
    (hb : t.buf = memWrite s.capacity s.head bs s.buf) (ht : t.tail = s.tail) (hc : t.count = s.count + bs.length)
    (hcfg : t.cfg = s.cfg) : t.validBytes = s.validBytes ++ bs := by
  have hroom : s.count + bs.length ≤ s.capacity := by
    have := hinv.count_le
    unfold State.free at hfits
    omega
  have hoff (i : Nat) : (s.head + i) % s.capacity = (s.tail + (s.count + i)) % s.capacity := by
    rw [hinv.head_eq, Nat.mod_add_mod, Nat.add_assoc]
  have hcap : t.capacity = s.capacity := congrArg Config.capacity hcfg
  refine List.ext_getElem? fun j => ?_
  rcases Nat.lt_or_ge j s.count with hold | hnew
  · rw [List.getElem?_append_left (by simpa using hold), t.validBytes_getElem? (by omega),
      s.validBytes_getElem? hold, hb, ht, hcap, memWrite_read_outside]
    intro i hi
    rw [hoff]
    exact offset_ne (by omega) (by omega)
  · obtain ⟨i, rfl⟩ := Nat.exists_eq_add_of_le hnew
    rw [List.getElem?_append_right (by simp), State.validBytes_length, Nat.add_sub_cancel_left]
    rcases Nat.lt_or_ge i bs.length with hi | hi
    · rw [t.validBytes_getElem? (by omega), hb, ht, hcap, ← hoff, memWrite_read_inside _ _ _ _ (by omega) i hi,
        List.getElem?_eq_getElem hi, Option.getD_some]
    · rw [List.getElem?_eq_none hi, List.getElem?_eq_none (by rw [State.validBytes_length]; omega)]

/-- What `MemRead` answers from `tail` on are the first bytes of the queue. -/
theorem memRead_eq_take_validBytes {s : State} {n : Nat} {bs : List Byte} (hn : n ≤ s.count)
    (h : memRead s.capacity s.tail n s.buf = .ok bs) : bs = s.validBytes.take n := by
  obtain ⟨hlen, hread⟩ := memRead_ok _ _ _ _ _ h
  refine List.ext_getElem? fun j => ?_
  rcases Nat.lt_or_ge j n with hj | hj
  · rw [List.getElem?_take_of_lt hj, s.validBytes_getElem? (by omega), ← hread j hj,
      List.getElem?_eq_getElem (by omega), Option.getD_some]
  · rw [List.getElem?_eq_none (by omega), List.getElem?_eq_none (by rw [List.length_take]; omega)]

/-- Advancing `tail` removes the first bytes of the queue. -/
theorem State.validBytes_pop {s t : State} {n : Nat} (hn : n ≤ s.count) (hb : t.buf = s.buf)
    (ht : t.tail = (s.tail + n) % s.capacity) (hc : t.count = s.count - n) (hcfg : t.cfg = s.cfg) :
    t.validBytes = s.validBytes.drop n := by
  have hcap : t.capacity = s.capacity := congrArg Config.capacity hcfg
  refine List.ext_getElem? fun j => ?_
  rw [List.getElem?_drop]
  rcases Nat.lt_or_ge j t.count with hj | hj
  · rw [t.validBytes_getElem? hj, s.validBytes_getElem? (by omega), hb, ht, hcap, Nat.mod_add_mod, Nat.add_assoc]
  · rw [List.getElem?_eq_none (by rwa [State.validBytes_length]),
      List.getElem?_eq_none (by rw [State.validBytes_length]; omega)]

/-- A completed read answers the oldest bytes and removes them (40_fifo R103). -/
theorem ReadDone.validBytes {len : BitVec 24} {s t : State} (h : ReadDone len s t) :
    t.results = s.answered ⟨.ok, len.setWidth 32, .bytes (s.validBytes.take len.toNat)⟩ ∧
    t.validBytes = s.validBytes.drop len.toNat := by
  obtain ⟨hlen, bs, hread, rfl⟩ := h
  rw [← memRead_eq_take_validBytes hlen hread]
  exact ⟨rfl, State.validBytes_pop hlen rfl rfl rfl rfl⟩

/-- FIFO.WRITE appends its bytes where they fit, and else none (40_fifo R101). -/
theorem Effect.validBytes_fifoWrite {len : BitVec 24} {bs : List Byte} {s t : State} (hinv : s.Inv)
    (hwf : Instr.wf (.fifoWrite len bs) = true) (h : Effect s t (.fifoWrite len bs)) :
    t.validBytes = s.validBytes ++ if len.toNat ≤ s.free then bs else [] := by
  have hlen : bs.length = len.toNat := by simpa [Instr.wf] using hwf
  obtain ⟨rfl, rfl⟩ | ⟨-, hroom, rfl⟩ | ⟨-, hroom, rfl⟩ := h
  · obtain rfl : bs = [] := List.eq_nil_of_length_eq_zero hlen
    rw [ite_self, List.append_nil]
    exact State.validBytes_congr rfl rfl rfl rfl
  · rw [if_neg (by omega), List.append_nil]
    exact State.validBytes_congr rfl rfl rfl rfl
  · rw [if_pos hroom]
    exact State.validBytes_push hinv (hlen ▸ hroom) rfl rfl (hlen ▸ rfl) rfl

/-- A well-formed block gives `4 * LEN` bytes where its length is even (43_pipeline R181). -/
theorem ser_firOutputs_length {len : BitVec 24} {payload : List F32} (hwf : Instr.wf (.pipeProcess len payload) = true)
    (c : Config) (hist : List Sample) :
    (ser (firOutputs c hist (samplesOf payload))).length = 8 * (len.toNat / 2) := by
  have hlen : payload.length = 2 * len.toNat := by simpa [Instr.wf] using hwf
  rw [ser_length, firOutputs_length, samplesOf_length, hlen]
  omega

/-- PIPE.PROCESS appends its serialized outputs where its length is good and they fit, and else nothing (43_pipeline
R180, R181). -/
theorem Effect.validBytes_pipeProcess {len : BitVec 24} {payload : List F32} {s t : State} (hinv : s.Inv)
    (hwf : Instr.wf (.pipeProcess len payload) = true) (h : Effect s t (.pipeProcess len payload)) :
    t.validBytes = s.validBytes ++
      if len.toNat % 2 = 0 ∧ s.cfg.minIn ≤ len.toNat ∧ 4 * len.toNat ≤ s.free then
        ser (firOutputs s.cfg s.hist (samplesOf payload)) else [] := by
  have hlen := ser_firOutputs_length hwf s.cfg s.hist
  obtain ⟨hbad, rfl⟩ | ⟨hgood, ys, l, rfl, -, hcase⟩ := h
  · rw [badLength_iff] at hbad
    rw [if_neg (by omega), List.append_nil]
    exact State.validBytes_congr rfl rfl rfl rfl
  · rw [badLength_false_iff] at hgood
    obtain ⟨hroom, rfl⟩ | ⟨hroom, rfl⟩ := hcase
    · rw [if_neg (by omega), List.append_nil]
      exact State.validBytes_congr rfl rfl rfl rfl
    · rw [if_pos (by omega)]
      exact State.validBytes_push hinv (hlen ▸ hroom) rfl rfl (hlen ▸ rfl) rfl

/-- FIFO.READ with the bytes there; for a zero length they are none. -/
theorem Effect.validBytes_fifoRead {len : BitVec 24} {s t : State} (h : Effect s t (.fifoRead len))
    (hlen : len.toNat ≤ s.count) :
    t.results = s.answered ⟨.ok, len.setWidth 32, .bytes (s.validBytes.take len.toNat)⟩ ∧
    t.validBytes = s.validBytes.drop len.toNat := by
  obtain ⟨rfl, rfl⟩ | ⟨-, hdone⟩ | ⟨hshort, -⟩ := h
  · exact ⟨rfl, State.validBytes_congr rfl rfl rfl rfl⟩
  · exact hdone.validBytes
  · omega

/-- FIFO.READ with the bytes short: the port waits. -/
theorem Effect.fifoRead_waits {len : BitVec 24} {s t : State} (h : Effect s t (.fifoRead len))
    (hlen : s.count < len.toNat) : t = { s with rdwait := some len } := by
  obtain ⟨rfl, -⟩ | ⟨-, hle, -⟩ | ⟨-, ht⟩ := h
  · exact absurd hlen (Nat.not_lt_zero _)
  · omega
  · exact ht

/-- The commands of the other units, and the two snapshots, leave the queue. -/
theorem Effect.validBytes_of_not_fifo {i : Instr} {s t : State} (h : Effect s t i)
    (hi : i.opcode ∉ [.fifoWrite, .pipeProcess, .fifoRead, .fifoReset]) : t.validBytes = s.validBytes := by
  cases i with
  | firReset | ltReset | ltUpdate | ltRead | fifoAvailRd | fifoAvailWr =>
    subst h; exact State.validBytes_congr rfl rfl rfl rfl
  | firProcess => obtain ⟨-, rfl⟩ | ⟨-, rfl⟩ := h <;> exact State.validBytes_congr rfl rfl rfl rfl
  | fifoWrite | pipeProcess | fifoRead | fifoReset => simp [Instr.opcode] at hi

theorem State.validBytes_completeIllegal (s : State) : s.completeIllegal.validBytes = s.validBytes :=
  State.validBytes_congr rfl rfl rfl rfl

/-- What a command that runs does is its effect on a port of its row. -/
theorem effect_of_exec {i : Instr} {s t : State} (h : exec i s = .next t) (hp : s.active ∈ i.opcode.ports) :
    Effect s t i :=
  (exec_next h).elim (fun ⟨hn, _⟩ => absurd hp hn) And.right

/-- A command on a port that its row does not list leaves the queue (30_encoding R78). -/
theorem validBytes_of_wrong_port {i : Instr} {s t : State} (h : exec i s = .next t)
    (hp : s.active ∉ i.opcode.ports) : t.validBytes = s.validBytes := by
  obtain ⟨-, rfl⟩ | ⟨hport, -⟩ := exec_next h
  · exact s.validBytes_completeIllegal
  · exact absurd hport hp

theorem validBytes_of_not_fifo {i : Instr} {s t : State} (h : exec i s = .next t)
    (hi : i.opcode ∉ [.fifoWrite, .pipeProcess, .fifoRead, .fifoReset]) : t.validBytes = s.validBytes := by
  by_cases hp : s.active ∈ i.opcode.ports
  · exact (effect_of_exec h hp).validBytes_of_not_fifo hi
  · exact validBytes_of_wrong_port h hp

/-- The wait-end: the read completes where the bytes are there, and else consumes nothing (40_fifo R103, R104). -/
theorem endWait_validBytes {len : BitVec 24} {s t : State} (h : endWait len s = .next t) :
    (len.toNat ≤ s.count →
      t.results = s.answered ⟨.ok, len.setWidth 32, .bytes (s.validBytes.take len.toNat)⟩ ∧
      t.validBytes = s.validBytes.drop len.toNat) ∧
    (s.count < len.toNat → t.results = s.answered ⟨.timeout, 0, .none⟩ ∧ t.validBytes = s.validBytes) := by
  obtain hdone | ⟨hshort, rfl⟩ := endWait_next h
  · have ⟨hle, _⟩ := hdone
    exact ⟨fun _ => hdone.validBytes, fun hlt => absurd hle (Nat.not_le.mpr hlt)⟩
  · exact ⟨fun hle => absurd hle (Nat.not_le.mpr hshort), fun _ => ⟨rfl, State.validBytes_congr rfl rfl rfl rfl⟩⟩

/-- Settles O32: each command by its effect on the queue, the wait-end by `endWait_validBytes`. -/
theorem fifoIsByteQueue : Obligations.FifoIsByteQueue := by
  constructor
  · intro i s t hinv hwf h
    refine ⟨?_, ?_, ?_, ?_, ?_, validBytes_of_wrong_port h, validBytes_of_not_fifo h, s.validBytes_length⟩
    · rintro len bs rfl hp
      exact (effect_of_exec h (List.mem_singleton.mpr hp)).validBytes_fifoWrite hinv hwf
    · rintro len payload rfl hp
      exact (effect_of_exec h (List.mem_singleton.mpr hp)).validBytes_pipeProcess hinv hwf
    · rintro len rfl hp hlen
      exact (effect_of_exec h (List.mem_singleton.mpr hp)).validBytes_fifoRead hlen
    · rintro len rfl hp hlen
      obtain rfl := (effect_of_exec h (List.mem_singleton.mpr hp)).fifoRead_waits hlen
      exact ⟨rfl, rfl, State.validBytes_congr rfl rfl rfl rfl⟩
    · rintro rfl hp
      obtain rfl := effect_of_exec h (List.mem_singleton.mpr hp)
      exact State.validBytes_of_count_zero rfl
  · intro s t len _ hr hs h
    rw [step_endsWait hr hs] at h
    obtain ⟨hdone, hshort⟩ := endWait_validBytes h
    refine ⟨fun hle => (hdone hle).imp_left fun hres => ?_, fun hlt => (hshort hlt).imp_left fun hres => ?_⟩
    · rw [hres, State.answered_get, if_pos rfl]
      rfl
    · rw [hres, State.answered_get, if_pos rfl]

end Sys2Proof.Machine
end

section
/-! The opcode map and the payload a word fixes, read off the rows of 30_encoding R77; then the decoder and the encoder
as inverses of each other (R79, R82), and what has no meaning: a payload of another length (R75), a reserved OP
(R80), a non-zero ARG (R79), and a port that the row does not list (R78). -/

namespace Sys2Proof

/-! ### The rows, and the length of a payload -/

theorem mem_opcodes (o : Opcode) : o ∈ opcodes := by
  cases o <;> decide

theorem Command.payloadFits_iff (c : Command) :
    c.payloadFits = true ↔ (c.words.length, c.bytes.length) = payloadLength c.word := by
  simp [Command.payloadFits, Prod.ext_iff]

/-- Only formats L and V have a payload (30_encoding R72, R75). -/
theorem Opcode.payload_of_format_n {o : Opcode} (h : o.format = .n) (arg : BitVec 24) : o.payload arg = (0, 0) := by
  cases o with
  | firReset | ltReset | ltRead | fifoReset | fifoAvailRd | fifoAvailWr => rfl
  | firProcess | ltUpdate | fifoWrite | fifoRead | pipeProcess => cases h

theorem payloadLength_of_opcodeOf {w : Word} {o : Opcode} (h : opcodeOf (opField w) = some o) :
    payloadLength w = o.payload (argField w) := by
  simp [payloadLength, h]

theorem payloadLength_of_reserved {w : Word} (h : opcodeOf (opField w) = none) : payloadLength w = (0, 0) := by
  simp [payloadLength, h]

/-- 30_encoding R75's table by OP: a row gives its own entry, and a reserved OP is none of those listed. -/
theorem payloadLength_eq_ite (w : Word) : payloadLength w =
    if opField w = 0x02#8 ∨ opField w = 0x30#8 then (2 * (argField w).toNat, 0)
    else if opField w = 0x21#8 then (0, (argField w).toNat)
    else if opField w = 0x11#8 then (1, 0)
    else (0, 0) := by
  cases ho : opcodeOf (opField w) with
  | none =>
    have hne (o : Opcode) : ¬ opField w = o.code := ((opcodeOf_none_iff _).mp ho o).symm
    have hblock : ¬ (opField w = 0x02#8 ∨ opField w = 0x30#8) := not_or.mpr ⟨hne .firProcess, hne .pipeProcess⟩
    have hwrite : opField w ≠ 0x21#8 := hne .fifoWrite
    have hupdate : opField w ≠ 0x11#8 := hne .ltUpdate
    rw [payloadLength_of_reserved ho, if_neg hblock, if_neg hwrite, if_neg hupdate]
  | some o =>
    rw [payloadLength_of_opcodeOf ho, code_of_opcodeOf ho]
    cases o <;> rfl

/-! ### The decoder, case by case -/

/-- The converse of `decode_ok`: a row's word with the payload it fixes decodes to the row's instruction. -/
theorem decode_commandWord {o : Opcode} {arg : BitVec 24} {words : List Word} {bytes : List Byte}
    (hlen : (words.length, bytes.length) = o.payload arg) (harg : o.format ≠ .l → arg = 0) :
    decode ⟨commandWord o arg, words, bytes⟩ = .ok (o.instr arg words bytes) := by
  have hfits : Command.payloadFits ⟨commandWord o arg, words, bytes⟩ = true := by
    rwa [Command.payloadFits_iff, payloadLength_commandWord]
  have hlegal : ¬ (o.format ≠ .l ∧ arg ≠ 0) := fun ⟨hf, ha⟩ => ha (harg hf)
  simp only [decode, hfits, if_true, opField_commandWord, argField_commandWord, opcodeOf_code, if_neg hlegal]

section
variable {c : Command}

theorem decode_of_not_payloadFits (h : ¬ c.payloadFits = true) : decode c = .error .payloadMismatch :=
  if_neg h

theorem decode_of_reserved (hfits : c.payloadFits = true) (ho : opcodeOf (opField c.word) = none) :
    decode c = .error .reservedOp := by
  simp [decode, hfits, ho]

theorem decode_of_nonZeroArg {o : Opcode} (hfits : c.payloadFits = true) (ho : opField c.word = o.code)
    (hf : o.format ≠ .l) (harg : argField c.word ≠ 0) : decode c = .error .nonZeroArg := by
  simp only [decode, hfits, if_true, ho, opcodeOf_code, if_pos (And.intro hf harg)]

end

/-! ### Decoding and encoding are inverse -/

/-- Settles O6: the encoder writes the row's word, with ARG 0 outside format L, and a well-formed payload has the
length that this word fixes. -/
theorem decodeOfEncodeIsInstruction : Obligations.DecodeOfEncodeIsInstruction := by
  intro i hwf
  cases i with
  | firReset | ltReset | ltUpdate | ltRead | fifoReset | fifoAvailRd | fifoAvailWr =>
    exact decode_commandWord rfl fun _ => rfl
  | firProcess | pipeProcess => exact decode_commandWord (Prod.ext (beq_iff_eq.mp hwf) rfl) fun hf => absurd rfl hf
  | fifoWrite => exact decode_commandWord (Prod.ext rfl (beq_iff_eq.mp hwf)) fun hf => absurd rfl hf
  | fifoRead => exact decode_commandWord rfl fun hf => absurd rfl hf

/-- A row's instruction, from operands as the row has them, is well formed and encodes to those operands. -/
theorem encode_instr (o : Opcode) {arg : BitVec 24} {words : List Word} {bytes : List Byte}
    (hlen : (words.length, bytes.length) = o.payload arg) (harg : o.format ≠ .l → arg = 0) :
    encode (o.instr arg words bytes) = ⟨commandWord o arg, words, bytes⟩ ∧ (o.instr arg words bytes).wf = true := by
  obtain ⟨hwords, hbytes⟩ := Prod.mk.inj hlen
  cases o with
  | firReset | ltReset | ltRead | fifoReset | fifoAvailRd | fifoAvailWr =>
    obtain rfl := List.eq_nil_of_length_eq_zero hwords
    obtain rfl := List.eq_nil_of_length_eq_zero hbytes
    obtain rfl := harg (by decide)
    exact ⟨rfl, rfl⟩
  | ltUpdate =>
    obtain ⟨p, rfl⟩ := List.length_eq_one_iff.mp hwords
    obtain rfl := List.eq_nil_of_length_eq_zero hbytes
    obtain rfl := harg (by decide)
    exact ⟨rfl, rfl⟩
  | firProcess | pipeProcess =>
    obtain rfl := List.eq_nil_of_length_eq_zero hbytes
    exact ⟨rfl, beq_iff_eq.mpr hwords⟩
  | fifoWrite =>
    obtain rfl := List.eq_nil_of_length_eq_zero hwords
    exact ⟨rfl, beq_iff_eq.mpr hbytes⟩
  | fifoRead =>
    obtain rfl := List.eq_nil_of_length_eq_zero hwords
    obtain rfl := List.eq_nil_of_length_eq_zero hbytes
    exact ⟨rfl, rfl⟩

/-- Settles O7: what the decoder asks of a command (`decode_ok`) is what `encode_instr` needs. -/
theorem encodeOfDecodeIsCommand : Obligations.EncodeOfDecodeIsCommand := by
  intro c i hd
  obtain ⟨o, arg, hword, harg, hfits, rfl⟩ := decode_ok hd
  rw [Command.payloadFits_iff, hword, payloadLength_commandWord] at hfits
  obtain ⟨henc, hwf⟩ := encode_instr o hfits harg
  exact ⟨by rw [henc, ← hword], hwf⟩

namespace Machine

/-! ### The step that takes a command which does not decode -/

/-- A word that is no command ends ILLEGAL on whichever port has taken it (30_encoding R79). -/
theorem runCommand_of_illegal {c : Command} {r : Reject} (hd : decode c = .error r) (hr : r ≠ .payloadMismatch)
    (s : State) : runCommand c s = .next { s with results := s.answered ⟨.illegal, 0, .none⟩ } := by
  cases r with
  | payloadMismatch => exact absurd rfl hr
  | reservedOp | nonZeroArg => simp only [runCommand, hd]; rfl

theorem runCommand_of_not_payloadFits {c : Command} (h : ¬ c.payloadFits = true) (s : State) :
    runCommand c s = .refused (.payloadMismatch s.active c.word) := by
  simp [runCommand, decode_of_not_payloadFits h]

/-- Settles O9: the eleven OPs are those of the rows, and any other OP is reserved. -/
theorem reservedOpcodesEndIllegal : Obligations.ReservedOpcodesEndIllegal := by
  intro s p ps w cs hs hp hi hop
  have hnone : opcodeOf (opField w) = none := by
    refine (opcodeOf_none_iff _).mpr fun o ho => hop ?_
    rw [← ho]
    exact List.mem_map_of_mem (f := Opcode.code) (mem_opcodes o)
  have hfits : Command.payloadFits ⟨w, [], []⟩ = true :=
    (Command.payloadFits_iff _).mpr (payloadLength_of_reserved hnone).symm
  rw [step_takes hs hp hi, runCommand_of_illegal (decode_of_reserved hfits hnone) (by decide)]
  rfl

/-- Settles O10: the six OPs are those of the rows of format N, and 0x11 is the row of format V. -/
theorem nonZeroArgumentEndsIllegal : Obligations.NonZeroArgumentEndsIllegal := by
  intro s p ps c cs hs hp hi hrow harg
  have hopcode : ∃ o : Opcode, opField c.word = o.code ∧ o.format ≠ .l ∧
      (c.words.length, c.bytes.length) = o.payload (argField c.word) := by
    obtain ⟨hmem, hwords, hbytes⟩ | ⟨hop, hwords, hbytes⟩ := hrow
    · obtain ⟨o, ho, hcode⟩ := List.mem_map.mp
        (show opField c.word ∈ (opcodes.filter (·.format = .n)).map Opcode.code from hmem)
      have hn : o.format = .n := by simpa using (List.mem_filter.mp ho).2
      exact ⟨o, hcode.symm, by simp [hn], by rw [hwords, hbytes, Opcode.payload_of_format_n hn]; rfl⟩
    · exact ⟨.ltUpdate, hop, by decide, by rw [hwords, hbytes]; rfl⟩
  obtain ⟨o, hop, hf, hlen⟩ := hopcode
  have hfits : c.payloadFits = true := by
    rwa [Command.payloadFits_iff, payloadLength_of_opcodeOf (hop ▸ opcodeOf_code o)]
  rw [step_takes hs hp hi, runCommand_of_illegal (decode_of_nonZeroArg hfits hop hf harg) (by decide)]
  rfl

/-- Settles O12: R75's table, and the length as the first thing that the decoder looks at. -/
theorem payloadMismatchHasNoStep : Obligations.PayloadMismatchHasNoStep := by
  refine ⟨payloadLength_eq_ite, fun s p ps c cs hs hp hi hlen => ?_⟩
  rw [step_takes hs hp hi, runCommand_of_not_payloadFits (c.payloadFits_iff.not.mpr hlen)]

/-- Settles O8: each word is its row's with the LEN it names, and `0x01000001` is FIR.RESET's with a non-zero ARG. -/
theorem workedEncodingsDecode : Obligations.WorkedEncodingsDecode := by
  have hfir : 0x02000008#32 = commandWord .firProcess 8 := by decide
  have hwrite : 0x2100000A#32 = commandWord .fifoWrite 10 := by decide
  have hpipe : 0x30000004#32 = commandWord .pipeProcess 4 := by decide
  unfold Obligations.WorkedEncodingsDecode
  rw [hfir, hwrite, hpipe]
  refine ⟨fun p hp => ?_, fun b hb => ?_, by decide, by decide, fun p hp => ?_, fun s => ?_⟩
  · exact decode_commandWord (Prod.ext hp rfl) (by decide)
  · exact decode_commandWord (Prod.ext rfl hb) (by decide)
  · exact decode_commandWord (Prod.ext hp rfl) (by decide)
  · have hd : decode ⟨0x01000001#32, [], []⟩ = .error .nonZeroArg :=
      decode_of_nonZeroArg (o := .firReset) (by decide) (by decide) (by decide) (by decide)
    exact runCommand_of_illegal hd (by decide) s

/-! ### The port check -/

/-- Every meaning makes the port check first (30_encoding R78). -/
theorem exec_of_wrong_port {i : Instr} {s : State} (h : s.active ∉ i.opcode.ports) :
    exec i s = .next { s with results := s.answered ⟨.illegal, 0, .none⟩ } := by
  cases i <;> exact onPorts_illegal h _

/-- Settles O11: the ports of each of the rows. -/
theorem wrongPortEndsIllegal : Obligations.WrongPortEndsIllegal := by
  intro i s h
  refine exec_of_wrong_port ?_
  obtain ⟨hrow, hport⟩ | ⟨hrow, hport⟩ | ⟨hrow, hport⟩ := h
  · have hproducer : ∀ o ∈ [Opcode.firReset, .firProcess, .ltReset, .ltUpdate, .fifoWrite, .pipeProcess],
        o.ports = [.producer] := by decide
    rwa [hproducer _ hrow, List.mem_singleton]
  · rwa [hrow, Opcode.ports, List.mem_singleton]
  · rwa [hrow, Opcode.ports, List.mem_singleton]

end Machine

end Sys2Proof
end

section
/-! Every command leaves one record (30_encoding R70, R76): a count of each port's commands, done and to come, that no
step changes. -/

namespace Sys2Proof.Machine

/-- What stands for a command at port `p` at any time: its result record, its place in the list of commands to come, or
the read that waits. -/
def State.commandCount (s : State) (p : Port) : Nat :=
  (s.results.get p).length + (s.inbox.get p).length + if p = .consumer ∧ s.rdwait ≠ none then 1 else 0

/-- A command that the active port has taken in `s` is accounted for in `t`: by a result record, or by the wait of port
C. -/
inductive Accounted (s t : State) : Prop
  | answered (r : Result) (hres : t.results = s.answered r) (hinbox : t.inbox = s.inbox) (hwait : t.rdwait = s.rdwait)
  | waits (hport : s.active = .consumer) (hfree : s.rdwait = none) (hres : t.results = s.results)
      (hinbox : t.inbox = s.inbox) (hwait : t.rdwait ≠ none)

theorem State.answered_get_length (s : State) (r : Result) (p : Port) :
    ((s.answered r).get p).length = (s.results.get p).length + if p = s.active then 1 else 0 := by
  rw [State.answered_get]
  split <;> simp

theorem Accounted.commandCount {s t : State} (h : Accounted s t) (p : Port) :
    t.commandCount p = s.commandCount p + if p = s.active then 1 else 0 := by
  unfold State.commandCount
  cases h with
  | answered r hres hinbox hwait =>
    rw [hres, hinbox, hwait, State.answered_get_length]
    omega
  | waits hport hfree hres hinbox hwait =>
    rw [hres, hinbox]
    simp [hport, hfree, hwait]

/-- Every command of a port that is not waiting leaves its record at once, but for the read that starts a wait. -/
theorem Effect.accounted {i : Instr} {s t : State} (hport : s.active ∈ i.opcode.ports)
    (hfree : s.active = .consumer → s.rdwait = none) (h : Effect s t i) : Accounted s t := by
  cases i with
  | firReset | ltReset | ltUpdate | ltRead | fifoReset | fifoAvailRd | fifoAvailWr =>
    subst h; exact .answered _ rfl rfl rfl
  | firProcess => obtain ⟨-, rfl⟩ | ⟨-, rfl⟩ := h <;> exact .answered _ rfl rfl rfl
  | fifoWrite => obtain ⟨-, rfl⟩ | ⟨-, -, rfl⟩ | ⟨-, -, rfl⟩ := h <;> exact .answered _ rfl rfl rfl
  | pipeProcess =>
    obtain ⟨-, rfl⟩ | ⟨-, ys, l, -, -, ⟨-, rfl⟩ | ⟨-, rfl⟩⟩ := h <;> exact .answered _ rfl rfl rfl
  | fifoRead len =>
    have hconsumer : s.active = .consumer := List.mem_singleton.mp hport
    obtain ⟨-, rfl⟩ | ⟨-, -, bs, -, rfl⟩ | ⟨-, rfl⟩ := h
    · exact .answered _ rfl rfl rfl
    · exact .answered _ rfl rfl (hfree hconsumer).symm
    · exact .waits hconsumer (hfree hconsumer) rfl rfl (by simp)

theorem exec_accounted {i : Instr} {s t : State} (hfree : s.active = .consumer → s.rdwait = none)
    (h : exec i s = .next t) : Accounted s t := by
  obtain ⟨-, rfl⟩ | ⟨hport, heff⟩ := exec_next h
  · exact .answered _ rfl rfl rfl
  · exact heff.accounted hport hfree

/-- Taking a command moves it out of the port's list. -/
theorem State.commandCount_takes {s : State} {p : Port} {c : Command} {cs : List Command}
    (hi : s.inbox.get p = c :: cs) (ps : List Port) (q : Port) :
    s.commandCount q = State.commandCount { s with sched := ps, active := p, inbox := s.inbox.set p cs } q +
      if q = p then 1 else 0 := by
  unfold State.commandCount
  dsimp only
  rw [PerPort.get_set]
  by_cases hq : q = p
  · rw [if_pos hq, if_pos hq, hq, hi, List.length_cons]
    omega
  · rw [if_neg hq, if_neg hq]
    rfl

/-- The wait-end action turns the waiting read into its record. -/
theorem endWait_commandCount {len : BitVec 24} {s t : State} (hport : s.active = .consumer) (hr : s.rdwait = some len)
    (h : endWait len s = .next t) (p : Port) : t.commandCount p = s.commandCount p := by
  have hdone : ∃ r, t.results = s.answered r ∧ t.inbox = s.inbox ∧ t.rdwait = none := by
    obtain ⟨-, bs, -, rfl⟩ | ⟨-, rfl⟩ := endWait_next h <;> exact ⟨_, rfl, rfl, rfl⟩
  obtain ⟨r, hres, hinbox, hwait⟩ := hdone
  unfold State.commandCount
  rw [hres, hinbox, hwait, hr, State.answered_get_length, hport]
  simp only [ne_eq, not_true_eq_false, and_false, reduceCtorEq, not_false_eq_true, and_true, if_false]
  omega

/-- Settles O22: a turn takes a command and accounts for it, ends a wait, or does neither. -/
theorem everyCommandLeavesOneRecord : Obligations.EveryCommandLeavesOneRecord := by
  intro s t h q
  change t.commandCount q = s.commandCount q
  obtain ⟨-, -, rfl⟩ | ⟨len, -, hr, hend⟩ | ⟨p, ps, -, -, -, rfl⟩ | ⟨p, ps, c, cs, -, hp, hi, hrun⟩ := step_next h
  · rfl
  · exact endWait_commandCount (s := { s with sched := s.sched.tail, active := .consumer }) rfl hr hend q
  · rfl
  · rw [State.commandCount_takes hi ps q]
    obtain ⟨i, -, hexec⟩ | ⟨-, -, -, rfl⟩ := hrun
    · have htaken := exec_accounted (s := { s with sched := ps, active := p, inbox := _ }) hp hexec
      exact htaken.commandCount q
    · exact (Accounted.answered (t := State.completeIllegal _) ⟨.illegal, 0, .none⟩ rfl rfl rfl).commandCount q

end Sys2Proof.Machine
end

section
/-! What one step does to the data of the block, said once (10_state R27 to R37), and with it the invariant (40_fifo
R108) and the occupancy events (R110): each is a property of the four things that can happen to the FIFO. -/

namespace Sys2Proof.Machine

/-! ### The FIFO's part of the invariant -/

/-- What `State.Inv` asks of the FIFO, on the values of its fields. -/
structure FifoInv (N : Nat) (buf : Memory) (head tail count : Nat) : Prop where
  buf_wf : Memory.wf buf = true
  buf_bound : ∀ cell ∈ buf, cell.1 < N
  head_lt : head < N
  tail_lt : tail < N
  count_le : count ≤ N
  head_eq : head = (tail + count) % N
  valid_written : ∀ j < count, (Memory.read buf ((tail + j) % N)).isSome = true

theorem State.inv_iff (s : State) : s.Inv ↔
    s.cfg.valid = true ∧ s.hist.length = s.cfg.tapCount ∧
      FifoInv s.capacity s.buf s.head s.tail s.count ∧ s.rdwait ≠ some 0 := by
  constructor
  · rintro ⟨hvalid, hhist, hwf, hbound, hhead, htail, hcount, heq, hwritten, hwait⟩
    exact ⟨hvalid, hhist, ⟨hwf, hbound, hhead, htail, hcount, heq, hwritten⟩, hwait⟩
  · rintro ⟨hvalid, hhist, ⟨hwf, hbound, hhead, htail, hcount, heq, hwritten⟩, hwait⟩
    exact ⟨hvalid, hhist, hwf, hbound, hhead, htail, hcount, heq, hwritten, hwait⟩

section
variable {N : Nat} {buf : Memory} {head tail count : Nat}

theorem FifoInv.capacity_pos (h : FifoInv N buf head tail count) : 0 < N :=
  Nat.zero_lt_of_lt h.tail_lt

/-- The offset `i` places after `head` is the one `count + i` places after `tail` (10_state R31). -/
theorem FifoInv.head_add (h : FifoInv N buf head tail count) (i : Nat) :
    (head + i) % N = (tail + (count + i)) % N := by
  rw [h.head_eq, Nat.mod_add_mod, Nat.add_assoc]

/-- A write that fits keeps the invariant: the old valid cells stay written, and the new ones are those it writes. -/
theorem FifoInv.push (h : FifoInv N buf head tail count) {bs : List Byte} (hfits : count + bs.length ≤ N) :
    FifoInv N (memWrite N head bs buf) ((head + bs.length) % N) tail (count + bs.length) where
  buf_wf := memWrite_wf N bs head buf h.buf_wf
  buf_bound := memWrite_bound N h.capacity_pos bs head buf h.buf_bound
  head_lt := Nat.mod_lt _ h.capacity_pos
  tail_lt := h.tail_lt
  count_le := hfits
  head_eq := h.head_add bs.length
  valid_written j hj := by
    rcases Nat.lt_or_ge j count with hold | hnew
    · exact memWrite_keeps_written N bs head buf _ (h.valid_written j hold)
    · obtain ⟨i, rfl⟩ := Nat.exists_eq_add_of_le hnew
      have hi : i < bs.length := Nat.lt_of_add_lt_add_left hj
      rw [← h.head_add, memWrite_read_inside N bs head buf (by omega) i hi, List.getElem?_eq_getElem hi]
      rfl

/-- A read of bytes that are there keeps the invariant: its valid cells are among the old ones. -/
theorem FifoInv.pop (h : FifoInv N buf head tail count) {n : Nat} (hn : n ≤ count) :
    FifoInv N buf head ((tail + n) % N) (count - n) where
  buf_wf := h.buf_wf
  buf_bound := h.buf_bound
  head_lt := h.head_lt
  tail_lt := Nat.mod_lt _ h.capacity_pos
  count_le := (Nat.sub_le _ _).trans h.count_le
  head_eq := by rw [Nat.mod_add_mod, Nat.add_assoc, Nat.add_sub_cancel' hn, ← h.head_eq]
  valid_written j hj := by
    rw [Nat.mod_add_mod, Nat.add_assoc]
    exact h.valid_written (n + j) (by omega)

/-- An emptied FIFO meets the invariant, whatever its storage still holds (20_memory R66). -/
theorem FifoInv.emptied (h : FifoInv N buf head tail count) : FifoInv N buf 0 0 0 where
  buf_wf := h.buf_wf
  buf_bound := h.buf_bound
  head_lt := h.capacity_pos
  tail_lt := h.capacity_pos
  count_le := Nat.zero_le N
  head_eq := (Nat.zero_mod N).symm
  valid_written _ hj := absurd hj (Nat.not_lt_zero _)

end

/-! ### What a command does to the data -/

/-- The EV_OCC events of the history, oldest first. -/
def State.occEvents (s : State) : List Event := s.events.filter Event.isOcc

theorem State.occEvents_of_append {s t : State} {es occs : List Event} (h : t.events = s.events ++ es)
    (hocc : es.filter Event.isOcc = occs) : t.occEvents = s.occEvents ++ occs := by
  rw [State.occEvents, h, List.filter_append, hocc]
  rfl

/-- The four things that can happen to the FIFO in one step, each with its EV_OCC events (40_fifo R110). -/
inductive FifoChange (s t : State) : Prop
  | kept (hbuf : t.buf = s.buf) (hhead : t.head = s.head) (htail : t.tail = s.tail) (hcount : t.count = s.count)
      (hwait : t.rdwait ≠ some 0) (hocc : t.occEvents = s.occEvents)
  | pushed (bs : List Byte) (hpos : 0 < bs.length) (hfits : s.count + bs.length ≤ s.capacity)
      (hbuf : t.buf = memWrite s.capacity s.head bs s.buf) (hhead : t.head = (s.head + bs.length) % s.capacity)
      (htail : t.tail = s.tail) (hcount : t.count = s.count + bs.length) (hwait : t.rdwait = s.rdwait)
      (hocc : t.occEvents = s.occEvents ++ [.occ (s.count + bs.length)])
  | popped (n : Nat) (hpos : 0 < n) (hle : n ≤ s.count) (hbuf : t.buf = s.buf) (hhead : t.head = s.head)
      (htail : t.tail = (s.tail + n) % s.capacity) (hcount : t.count = s.count - n) (hwait : t.rdwait = none)
      (hocc : t.occEvents = s.occEvents ++ [.occ (s.count - n)])
  | emptied (hbuf : t.buf = s.buf) (hhead : t.head = 0) (htail : t.tail = 0) (hcount : t.count = 0)
      (hwait : t.rdwait = s.rdwait) (hocc : t.occEvents = s.occEvents ++ if s.count = 0 then [] else [.occ 0])

/-- What a turn keeps once its port has taken its command, and what it does to the FIFO. -/
structure DataChange (s t : State) : Prop where
  cfg : t.cfg = s.cfg
  sched : t.sched = s.sched
  inbox : t.inbox = s.inbox
  hist_length : t.hist.length = s.hist.length
  fifo : FifoChange s t

section
variable {s : State} (hinv : s.Inv) {hist' : List Sample} (hhist : hist'.length = s.hist.length) {level' : F32}
  {faults' : FaultSet} {results' : PerPort (List Result)}
include hinv hhist

/-- A turn that leaves the FIFO and its waiting read alone, and emits the events `es`, none of them EV_OCC. -/
theorem DataChange.of_events {es : List Event} (hes : es.filter Event.isOcc = []) :
    DataChange s { s with
      hist := hist', level := level', faults := faults', results := results', events := s.events ++ es } :=
  ⟨rfl, rfl, rfl, hhist, .kept rfl rfl rfl rfl hinv.wait_positive
    ((State.occEvents_of_append rfl hes).trans (List.append_nil _))⟩

/-- A turn that leaves the FIFO and its waiting read alone, and emits nothing. -/
theorem DataChange.of_silent :
    DataChange s { s with hist := hist', level := level', faults := faults', results := results' } :=
  ⟨rfl, rfl, rfl, hhist, .kept rfl rfl rfl rfl hinv.wait_positive rfl⟩

end

theorem two_le_minIn_of_valid {c : Config} (h : c.valid = true) : 2 ≤ c.minIn := by
  simp only [Config.valid, Bool.and_eq_true, minInValid_iff] at h
  obtain ⟨⟨-, -, hmin⟩, -⟩ := h
  exact hmin

theorem ReadDone.dataChange {len : BitVec 24} {s t : State} (hlen : 0 < len.toNat) (h : ReadDone len s t) :
    DataChange s t := by
  obtain ⟨hle, bs, -, rfl⟩ := h
  exact ⟨rfl, rfl, rfl, rfl, .popped len.toNat hlen hle rfl rfl rfl rfl rfl (State.occEvents_of_append rfl rfl)⟩

section
variable {s t : State} (hinv : s.Inv)
include hinv

theorem add_le_capacity_of_le_free {n : Nat} (h : n ≤ s.free) : s.count + n ≤ s.capacity := by
  have := hinv.count_le
  unfold State.free at h
  omega

theorem completeIllegal_dataChange : DataChange s s.completeIllegal :=
  .of_silent hinv rfl

/-- What each well-formed command does to the data. -/
theorem Effect.dataChange {i : Instr} (hwf : i.wf = true) (h : Effect s t i) : DataChange s t := by
  cases i with
  | firReset =>
    subst h; exact .of_silent hinv (List.length_replicate.trans hinv.hist_length.symm)
  | ltRead | fifoAvailRd | fifoAvailWr =>
    subst h; exact .of_silent hinv rfl
  | ltReset | ltUpdate =>
    subst h; exact .of_events hinv rfl rfl
  | firProcess =>
    obtain ⟨-, rfl⟩ | ⟨-, rfl⟩ := h
    · exact .of_silent hinv rfl
    · exact .of_silent hinv (firHistory_length _ _)
  | fifoReset =>
    subst h
    refine ⟨rfl, rfl, rfl, rfl, .emptied rfl rfl rfl rfl rfl ?_⟩
    by_cases hc : s.count = 0 <;> simp [State.occEvents, hc, Event.isOcc]
  | fifoWrite len bs =>
    have hlen : bs.length = len.toNat := by simpa [Instr.wf] using hwf
    obtain ⟨-, rfl⟩ | ⟨-, -, rfl⟩ | ⟨hne, hroom, rfl⟩ := h
    · exact .of_silent hinv rfl
    · exact .of_events hinv rfl rfl
    · have hpos := BitVec.toNat_pos_of_ne_zero hne
      rw [← hlen] at hroom hpos ⊢
      exact ⟨rfl, rfl, rfl, rfl, .pushed bs hpos (add_le_capacity_of_le_free hinv hroom) rfl rfl rfl rfl rfl
        (State.occEvents_of_append rfl rfl)⟩
  | fifoRead len =>
    obtain ⟨-, rfl⟩ | ⟨hne, hdone⟩ | ⟨hshort, rfl⟩ := h
    · exact .of_silent hinv rfl
    · exact hdone.dataChange (BitVec.toNat_pos_of_ne_zero hne)
    · have hne : len ≠ 0 := by
        rintro rfl
        exact absurd hshort (Nat.not_lt_zero _)
      exact ⟨rfl, rfl, rfl, rfl, .kept rfl rfl rfl rfl (fun hwait => hne (Option.some.inj hwait)) rfl⟩
  | pipeProcess len payload =>
    have hlen := ser_firOutputs_length hwf s.cfg s.hist
    obtain ⟨-, rfl⟩ | ⟨hgood, ys, l, rfl, -, hcase⟩ := h
    · exact .of_silent hinv rfl
    · have hmin := two_le_minIn_of_valid hinv.cfg_valid
      obtain ⟨heven, hle⟩ := badLength_false_iff.mp hgood
      rw [← hlen] at hcase
      obtain ⟨-, rfl⟩ | ⟨hroom, rfl⟩ := hcase
      · exact .of_events hinv (firHistory_length _ _) rfl
      · exact ⟨rfl, rfl, rfl, firHistory_length _ _, .pushed _ (by omega) (add_le_capacity_of_le_free hinv hroom)
          rfl rfl rfl rfl rfl (State.occEvents_of_append rfl rfl)⟩

/-- The wait-end action completes the read or times out (40_fifo R103, R104). -/
theorem endWait_dataChange {len : BitVec 24} (hr : s.rdwait = some len) (h : endWait len s = .next t) :
    DataChange s t := by
  obtain hdone | ⟨-, rfl⟩ := endWait_next h
  · have hne : len ≠ 0 := fun h0 => hinv.wait_positive (h0 ▸ hr)
    exact hdone.dataChange (BitVec.toNat_pos_of_ne_zero hne)
  · exact ⟨rfl, rfl, rfl, rfl, .kept rfl rfl rfl rfl (by simp) rfl⟩

end

theorem wf_of_decode {c : Command} {i : Instr} (h : decode c = .ok i) : i.wf = true :=
  (encodeOfDecodeIsCommand c i h).2

/-- The fields that say whose turn comes next are no part of the invariant. -/
theorem State.Inv.taken {s : State} (h : s.Inv) (ps : List Port) (p : Port) (box : PerPort (List Command)) :
    State.Inv { s with sched := ps, active := p, inbox := box } :=
  (State.inv_iff _).mpr (s.inv_iff.mp h)

/-- A step does to the data what its port's turn does, once the turn and at most one command are taken. -/
theorem step_dataChange {s t : State} (hinv : s.Inv) (h : step s = .next t) :
    ∃ p box, (∀ q, ∀ c ∈ box.get q, c ∈ s.inbox.get q) ∧
      DataChange { s with sched := s.sched.tail, active := p, inbox := box } t := by
  obtain ⟨hs, -, rfl⟩ | ⟨len, -, hr, hend⟩ | ⟨p, ps, hs, -, -, rfl⟩ | ⟨p, ps, c, cs, hs, -, hi, hrun⟩ := step_next h
  · rw [hs, List.tail_nil, ← hs]
    exact ⟨t.active, t.inbox, fun _ _ => id, .of_silent hinv rfl⟩
  · exact ⟨.consumer, s.inbox, fun _ _ => id, endWait_dataChange (hinv.taken _ _ _) hr hend⟩
  · rw [hs, List.tail_cons]
    exact ⟨p, s.inbox, fun _ _ => id, .of_silent (hinv.taken _ _ _) rfl⟩
  · refine ⟨p, s.inbox.set p cs, fun q d hd => ?_, ?_⟩
    · rw [PerPort.get_set] at hd
      split at hd
      · next hq => rw [hq, hi]; exact List.mem_cons_of_mem c hd
      · exact hd
    · rw [hs, List.tail_cons]
      have htaken := hinv.taken ps p (s.inbox.set p cs)
      obtain ⟨i, hd, hexec⟩ | ⟨-, -, -, rfl⟩ := hrun
      · obtain ⟨-, rfl⟩ | ⟨-, heff⟩ := exec_next hexec
        · exact completeIllegal_dataChange htaken
        · exact heff.dataChange htaken (wf_of_decode hd)
      · exact completeIllegal_dataChange htaken

/-! ### The invariant -/

/-- Each of the four changes keeps the FIFO's invariant. -/
theorem DataChange.inv {s t : State} (hinv : s.Inv) (h : DataChange s t) : t.Inv := by
  obtain ⟨hvalid, hhist, hfifo, hwait⟩ := s.inv_iff.mp hinv
  have hcap : t.capacity = s.capacity := congrArg Config.capacity h.cfg
  rw [State.inv_iff, h.cfg, h.hist_length, hcap]
  refine ⟨hvalid, hhist, ?_⟩
  cases h.fifo with
  | kept hb hh ht hc hr _ => rw [hb, hh, ht, hc]; exact ⟨hfifo, hr⟩
  | pushed bs _ hfits hb hh ht hc hr _ => rw [hb, hh, ht, hc, hr]; exact ⟨hfifo.push hfits, hwait⟩
  | popped n _ hle hb hh ht hc hr _ => rw [hb, hh, ht, hc, hr]; exact ⟨hfifo.pop hle, by simp⟩
  | emptied hb hh ht hc hr _ => rw [hb, hh, ht, hc, hr]; exact ⟨hfifo.emptied, hwait⟩

theorem step_inv {s t : State} (hinv : s.Inv) (h : step s = .next t) : t.Inv := by
  obtain ⟨p, box, -, hdata⟩ := step_dataChange hinv h
  exact hdata.inv (hinv.taken _ _ _)

/-- Settles O4: `step_inv`, and R31 and R108 as parts of the invariant. -/
theorem stepKeepsInvariant : Obligations.StepKeepsInvariant := by
  intro s t hinv h
  have ht := step_inv hinv h
  exact ⟨ht, ht.head_eq, Nat.zero_le _, ht.count_le⟩

/-! ### The occupancy events -/

/-- Only the four changes of the FIFO emit EV_OCC, and each of them that moves bytes moves at least one. -/
theorem FifoChange.occEvents {s t : State} (h : FifoChange s t) :
    t.occEvents = s.occEvents ++ if t.count = s.count then [] else [.occ t.count] := by
  cases h with
  | kept _ _ _ hc _ hocc => rw [hocc, if_pos hc, List.append_nil]
  | pushed bs hpos _ _ _ _ hc _ hocc => rw [hocc, hc, if_neg (by omega)]
  | popped n hpos hle _ _ _ hc _ hocc => rw [hocc, hc, if_neg (by omega)]
  | emptied _ _ _ hc _ hocc => rw [hocc, hc]; simp only [eq_comm]

theorem step_occEvents {s t : State} (hinv : s.Inv) (h : step s = .next t) :
    t.occEvents = s.occEvents ++ if t.count = s.count then [] else [.occ t.count] := by
  obtain ⟨p, box, -, hdata⟩ := step_dataChange hinv h
  exact hdata.fifo.occEvents

/-- Settles O33: a step only appends events (`step_historiesGrow`), and `step_occEvents` says which EV_OCC those are. -/
theorem occupancyEventExactlyOnChange : Obligations.OccupancyEventExactlyOnChange := by
  intro s t hinv h
  obtain ⟨es, hevents, -⟩ := (step_historiesGrow h).events
  have happend : t.occEvents = s.occEvents ++ es.filter Event.isOcc := State.occEvents_of_append hevents rfl
  exact ⟨es, hevents, List.append_cancel_left (happend.symm.trans (step_occEvents hinv h))⟩

end Sys2Proof.Machine
end

section
/-! The FIFO unit's commands (40_fifo R101 to R107), and the end of every wait (R104). A command's outcome is read off
its effect: it answers a next state, and `Effect` leaves one case under the hypotheses. -/

namespace Sys2Proof.Machine

/-! ### FIFO.WRITE -/

@[simp] theorem zext32_toNat (len : BitVec 24) : zext32 len.toNat = len.setWidth 32 := BitVec.ofNat_toNat 32 len

/-- The samples that the bytes of a dropped write stand for (40_fifo R101). -/
theorem zext32_toNat_div_eight (len : BitVec 24) : zext32 (len.toNat / 8) = (len / 8).setWidth 32 :=
  zext32_toNat (len / 8)

/-- Settles O25: the three cases of FIFO.WRITE's effect exclude each other. -/
theorem fifoWriteWritesAllOrDropsAll : Obligations.FifoWriteWritesAllOrDropsAll := by
  intro s len bs hp hlen
  obtain ⟨t, ht⟩ := exec_answers (i := .fifoWrite len bs) (s := s) (.inl fun _ => Instr.noConfusion)
  have heff : Effect s t (.fifoWrite len bs) := effect_of_exec ht (List.mem_singleton.mpr hp)
  refine ⟨fun hzero => ?_, fun hne hroom => ?_, fun hne hroom => ?_⟩
  · obtain ⟨-, rfl⟩ | ⟨hne, -⟩ | ⟨hne, -⟩ := heff
    · exact ht
    · exact absurd hzero hne
    · exact absurd hzero hne
  · obtain ⟨hzero, -⟩ | ⟨-, -, rfl⟩ | ⟨-, hfits, -⟩ := heff
    · exact absurd hzero hne
    · rwa [zext32_toNat, zext32_toNat_div_eight] at ht
    · exact absurd hfits (Nat.not_le.mpr hroom)
  · obtain ⟨hzero, -⟩ | ⟨-, hfull, -⟩ | ⟨-, -, rfl⟩ := heff
    · exact absurd hzero hne
    · exact absurd hroom (Nat.not_le.mpr hfull)
    · rw [← hlen] at hroom ht ⊢
      exact ⟨_, ht, memWrite_read_inside _ bs _ _ (hroom.trans (Nat.sub_le _ _)), memWrite_read_outside _ bs _ _⟩

/-! ### FIFO.READ -/

/-- A completed read answers the bytes at `(tail + j) mod N` (40_fifo R103). -/
theorem ReadDone.bytes {len : BitVec 24} {s t : State} (h : ReadDone len s t) :
    ∃ bs : List Byte, bs.length = len.toNat ∧
      (∀ j < len.toNat, bs[j]? = Memory.read s.buf ((s.tail + j) % s.capacity)) ∧
      t = { s with
        tail := (s.tail + len.toNat) % s.capacity, count := s.count - len.toNat, rdwait := none,
        events := s.events ++ [.occ (s.count - len.toNat)],
        results := s.answered ⟨.ok, len.setWidth 32, .bytes bs⟩ } := by
  obtain ⟨-, bs, hread, ht⟩ := h
  obtain ⟨hlen, hbytes⟩ := memRead_ok _ _ _ _ _ hread
  exact ⟨bs, hlen, hbytes, ht⟩

/-- Settles O26: the three cases of FIFO.READ's effect exclude each other. -/
theorem fifoReadTakesOldestBytesOrWaits : Obligations.FifoReadTakesOldestBytesOrWaits := by
  intro s len hp hfree hinv
  obtain ⟨t, ht⟩ := exec_answers_of_written hinv.valid_written (.fifoRead len)
  have heff : Effect s t (.fifoRead len) := effect_of_exec ht (List.mem_singleton.mpr hp)
  refine ⟨fun hzero => ?_, fun hne hle => ?_, fun hshort => ?_⟩
  · obtain ⟨-, rfl⟩ | ⟨hne, -⟩ | ⟨hshort, -⟩ := heff
    · exact ht
    · exact absurd hzero hne
    · exact absurd hshort (hzero ▸ Nat.not_lt_zero _)
  · obtain ⟨hzero, -⟩ | ⟨-, hdone⟩ | ⟨hshort, -⟩ := heff
    · exact absurd hzero hne
    · obtain ⟨bs, hlen, hbytes, rfl⟩ := hdone.bytes
      rw [← hfree] at ht
      exact ⟨bs, hlen, hbytes, ht⟩
    · exact absurd hle (Nat.not_le.mpr hshort)
  · exact heff.fifoRead_waits hshort ▸ ht

/-- Settles O27: the wait-end step runs `endWait`, which completes the read where the bytes are there. -/
theorem waitingReadCompletesWhenBytesAreThere : Obligations.WaitingReadCompletesWhenBytesAreThere := by
  intro s len hinv hr hs hle
  have htaken := hinv.taken s.sched.tail .consumer s.inbox
  obtain ⟨t, ht⟩ := endWait_answers_of_written htaken.valid_written len
  rw [step_endsWait hr hs]
  obtain hdone | ⟨hshort, -⟩ := endWait_next ht
  · obtain ⟨bs, hlen, hbytes, rfl⟩ := hdone.bytes
    exact ⟨bs, hlen, hbytes, ht⟩
  · exact absurd hle (Nat.not_le.mpr hshort)

/-! ### FIFO.RESET and the snapshots -/

/-- Settles O30: FIFO.RESET's effect on port K. -/
theorem fifoResetEmptiesTheFifo : Obligations.FifoResetEmptiesTheFifo := by
  intro s hp
  obtain ⟨t, ht⟩ := exec_answers (i := .fifoReset) (s := s) (.inl fun _ => Instr.noConfusion)
  obtain rfl : t = _ := effect_of_exec ht (List.mem_singleton.mpr hp)
  exact ht

theorem mem_all_ports (p : Port) : p ∈ [Port.producer, .consumer, .control] := by
  cases p <;> decide

/-- Settles O31: the rows of both commands list every port, and what each answers is its meaning there. -/
theorem availableReadsAreSnapshots : Obligations.AvailableReadsAreSnapshots := fun s =>
  ⟨onPorts_legal (mem_all_ports s.active) _, onPorts_legal (mem_all_ports s.active) _⟩

/-! ### Every wait ends -/

/-- One step of a run that answers a next state. -/
theorem run_succ_of_step {s t : State} (h : step s = .next t) (k : Nat) :
    Sys2Proof.core.run (k + 1) s = Sys2Proof.core.run k t := by
  have hstep : Sys2Proof.core.step s = .next t := h
  simp only [Host.Core.run, hstep]

/-- A step only takes commands, so those still to come keep their payloads. -/
theorem step_inboxFits {s t : State} (hinv : s.Inv) (hfits : s.inboxFits = true) (h : step s = .next t) :
    t.inboxFits = true := by
  obtain ⟨p, box, hbox, hdata⟩ := step_dataChange hinv h
  have hall (q : Port) : ∀ c ∈ t.inbox.get q, c.payloadFits = true := by
    rw [hdata.inbox]
    exact fun c hc => payloadFits_of_inboxFits hfits (hbox q c hc)
  simp only [State.inboxFits, Bool.and_eq_true, List.all_eq_true]
  exact ⟨⟨hall .producer, hall .consumer⟩, hall .control⟩

/-- A step uses up one turn, where one is left. -/
theorem step_sched {s t : State} (hinv : s.Inv) (h : step s = .next t) : t.sched = s.sched.tail := by
  obtain ⟨p, box, -, hdata⟩ := step_dataChange hinv h
  exact hdata.sched

/-- Another port's turn leaves the waiting read waiting (10_state R37). -/
theorem step_rdwait_of_turn_ne {s t : State} (h : step s = .next t) (hp : s.turn ≠ .consumer) :
    t.rdwait = s.rdwait := by
  have hframe := step_portFrame h
  cases hq : s.turn with
  | producer =>
    obtain ⟨-, hwait, -⟩ := hq ▸ hframe
    exact hwait
  | consumer => exact absurd hq hp
  | control =>
    obtain ⟨-, -, -, hwait, -⟩ := hq ▸ hframe
    exact hwait

/-- Another port's turn leaves the consumer's records. -/
theorem step_results_of_turn_ne {s t : State} (h : step s = .next t) (hp : s.turn ≠ .consumer) :
    t.results.get .consumer = s.results.get .consumer := by
  obtain hres | ⟨r, hres⟩ := (step_historiesGrow h).results
  · rw [hres]
  · rw [hres, State.answered_get, if_neg hp.symm]

/-- The waiting read of `s` has ended in `t`, with one record more on port C (60_exceptions R203). -/
def WaitEnded (s t : State) : Prop :=
  t.rdwait = none ∧ ∃ r : Result,
    t.results.get .consumer = s.results.get .consumer ++ [r] ∧ (r.status = .ok ∨ r.status = .timeout)

/-- Steps that left the consumer's records may stand before the end of the wait. -/
theorem WaitEnded.of_results_eq {s u t : State} (h : WaitEnded u t)
    (hres : u.results.get .consumer = s.results.get .consumer) : WaitEnded s t := by
  obtain ⟨hwait, r, ht, hstatus⟩ := h
  exact ⟨hwait, r, hres ▸ ht, hstatus⟩

theorem endWait_waitEnded {len : BitVec 24} {s t : State} (hp : s.active = .consumer) (h : endWait len s = .next t) :
    WaitEnded s t := by
  have hget (r : Result) : (s.answered r).get .consumer = s.results.get .consumer ++ [r] := by
    rw [State.answered_get, if_pos hp.symm]
  obtain ⟨-, bs, -, rfl⟩ | ⟨-, rfl⟩ := endWait_next h
  · exact ⟨rfl, _, hget _, .inl rfl⟩
  · exact ⟨rfl, _, hget _, .inr rfl⟩

/-- The wait ends at the consumer's turn, and where no turn is left (log 7). -/
theorem step_waitEnded {s : State} {len : BitVec 24} (hinv : s.Inv) (hr : s.rdwait = some len)
    (hs : s.sched = [] ∨ ∃ ps, s.sched = .consumer :: ps) : ∃ t, step s = .next t ∧ WaitEnded s t := by
  have htaken := hinv.taken s.sched.tail .consumer s.inbox
  obtain ⟨t, ht⟩ := endWait_answers_of_written htaken.valid_written len
  exact ⟨t, (step_endsWait hr hs).trans ht,
    endWait_waitEnded (s := { s with sched := s.sched.tail, active := .consumer }) rfl ht⟩

/-- By induction on the turns left: the consumer's turn ends the wait, and another leaves it with a turn less. -/
theorem run_waitEnded {s : State} {len : BitVec 24} (hinv : s.Inv) (hfits : s.inboxFits = true)
    (hr : s.rdwait = some len) :
    ∃ k ≤ s.sched.length + 1, ∃ t, Sys2Proof.core.run k s = .next t ∧ WaitEnded s t := by
  induction hs : s.sched generalizing s with
  | nil =>
    obtain ⟨t, ht, hend⟩ := step_waitEnded hinv hr (.inl hs)
    exact ⟨1, le_rfl, t, run_succ_of_step ht 0, hend⟩
  | cons p ps ih =>
    by_cases hp : p = .consumer
    · obtain ⟨t, ht, hend⟩ := step_waitEnded hinv hr (.inr ⟨ps, hp ▸ hs⟩)
      exact ⟨1, Nat.le_add_left 1 _, t, run_succ_of_step ht 0, hend⟩
    · have hturn : s.turn ≠ .consumer := (State.turn_eq (.inl ⟨ps, hs⟩)).trans_ne hp
      obtain ⟨-, -, hanswers⟩ := noStepReadsUnwrittenCell s hinv
      obtain ⟨u, hu⟩ := hanswers hfits
      obtain ⟨k, hk, t, hrun, hend⟩ := ih (step_inv hinv hu) (step_inboxFits hinv hfits hu)
        ((step_rdwait_of_turn_ne hu hturn).trans hr) (by rw [step_sched hinv hu, hs, List.tail_cons])
      exact ⟨k + 1, Nat.succ_le_succ hk, t, (run_succ_of_step hu k).trans hrun,
        hend.of_results_eq (step_results_of_turn_ne hu hturn)⟩

/-- Settles O29: `run_waitEnded`, which bounds the steps by the turns left. -/
theorem everyWaitEnds : Obligations.EveryWaitEnds := by
  intro s len hinv hfits hr
  obtain ⟨k, hk, t, hrun, hwait, r, hres, hstatus⟩ := run_waitEnded hinv hfits hr
  exact ⟨k, hk, t, r, hrun, hwait, hres, hstatus⟩

end Sys2Proof.Machine
end

section
/-! The FIR unit (41_filter R130 to R143): the active taps, where a lane's sum is exact, the peak, and the unit's
commands. -/

namespace Sys2Proof

/-! ### The active taps -/

/-- The active tap set of 41_filter R131. -/
theorem Config.mem_activeTaps (c : Config) (k : Nat) :
    k ∈ c.activeTaps ↔ k < c.tapCount ∧ (k = c.centre ∨ k % 2 ≠ c.centre % 2) := by
  have hodd : (k + c.centre) % 2 = 1 ↔ k % 2 ≠ c.centre % 2 := by omega
  simp [Config.activeTaps, hodd]

theorem Config.activeTaps_pairwise_lt (c : Config) : c.activeTaps.Pairwise (· < ·) :=
  List.pairwise_lt_range.filter _

theorem Config.activeTaps_nodup (c : Config) : c.activeTaps.Nodup := List.nodup_range.filter _

/-- The taps of a valid configuration are finite (41_filter R130). -/
theorem Config.tap_finite {c : Config} (h : c.valid = true) {k : Nat} (hk : k ∈ c.activeTaps) :
    fpIsFinite (c.tap k) = true := by
  simp only [Config.valid, Bool.and_eq_true, tapsValid_iff] at h
  obtain ⟨⟨⟨⟨⟨⟨-, htaps, -⟩, -⟩, -⟩, -⟩, -⟩, -⟩ := h
  exact (htaps k ((c.mem_activeTaps k).mp hk).1).1

/-! ### Zeros and NaN in sums -/

theorem finite_of_zero {w : F32} (h : fpIsZero w = true) : fpIsFinite w = true := by
  rw [fpIsZero_iff] at h
  rw [fpIsFinite_iff]
  omega

theorem fpIsZero_zero : fpIsZero F32.zero = true := by decide

theorem fpVal_nonpos_of_sign {w : F32} (h : fpSign w = true) : fpVal w ≤ 0 := by
  simp [fpVal, h]

/-- An operand that is no finite value gives an infinity or a NaN. -/
theorem finite_of_fpSum_finite {r : NanRule} {op : FpOp} {a b : F32} (h : fpIsFinite (fpSum r op a b) = true) :
    fpIsFinite a = true ∧ fpIsFinite b = true := by
  have hnan (x y : F32) : fpIsFinite (fpNaN r op x y) ≠ true := fun hf => by
    simpa using not_nan_of_finite hf
  have hinf {w : F32} (hw : fpIsInf w = true) : fpIsFinite w ≠ true := fun hf => by
    simp [not_inf_of_finite hf] at hw
  unfold fpSum at h
  split at h
  · exact absurd h (hnan a b)
  · rename_i hn
    simp only [Bool.or_eq_true, not_or, Bool.not_eq_true] at hn
    split at h
    · rename_i ha
      split at h
      · exact absurd h (hnan a b)
      · exact absurd h (hinf ha)
    · rename_i ha
      split at h
      · rename_i hb
        exact absurd h (hinf hb)
      · rename_i hb
        simp only [Bool.not_eq_true] at ha hb
        exact ⟨finite_of_not_nan_not_inf hn.1 ha, finite_of_not_nan_not_inf hn.2 hb⟩

/-- A sum of value 0 has the exact value 0: no sum of binary32 values is small enough to round to 0. -/
theorem fpVal_add_eq_zero {r : NanRule} {op : FpOp} {a b : F32} (ha : fpIsFinite a = true) (hb : fpIsFinite b = true)
    (h : fpVal (fpSum r op a b) = 0) : fpVal a + fpVal b = 0 := by
  obtain ⟨s, hs, -⟩ := fpSum_eq_pack r op ha hb
  rw [hs, ← fpIsZero_iff_fpVal, fpIsZero_iff, pack_mod s (fpRound_lt _ _)] at h
  by_contra hne
  have hone : 1 ≤ fpRound (fpVal a + fpVal b).natAbs 0 :=
    le_fpRound_of_le (by decide) (by simpa [fpMagBits, Nat.one_le_iff_ne_zero] using hne)
  omega

/-- A sum is `-0.0` only where both operands are: from an `a` that is not `-0.0`, a sum of value 0 is `+0.0`. -/
theorem fpSum_eq_zero {r : NanRule} {op : FpOp} {a b : F32} (ha : fpVal a = 0 → a = F32.zero)
    (h : fpVal (fpSum r op a b) = 0) : fpSum r op a b = F32.zero := by
  obtain ⟨hfa, hfb⟩ := finite_of_fpSum_finite (finite_of_zero ((fpIsZero_iff_fpVal _).mpr h))
  have hsum := fpVal_add_eq_zero hfa hfb h
  rw [fpSum_exact_zero r op hfa hfb hsum, if_neg]
  rintro ⟨hsa, hsb⟩
  have hva := fpVal_nonpos_of_sign hsa
  have hvb := fpVal_nonpos_of_sign hsb
  rw [ha (by omega)] at hsa
  exact absurd hsa (by decide)

/-! ### Exact products and sums -/

/-- The binary32 values, in units of 2^-298 (41_filter R135). -/
def IsRepresentable (x : Int) : Prop := ∃ w : F32, fpIsFinite w = true ∧ fpVal w * 2 ^ 149 = x

theorem isRepresentable_zero : IsRepresentable 0 := ⟨F32.zero, by decide, by decide⟩

theorem fpMulExact_of_representable (r : NanRule) {a b : F32} (ha : fpIsFinite a = true) (hb : fpIsFinite b = true)
    (h : IsRepresentable (fpVal a * fpVal b)) :
    fpMulExact r a b = true ∧ fpIsFinite (fpMul r a b) = true ∧ fpVal (fpMul r a b) * 2 ^ 149 = fpVal a * fpVal b := by
  obtain ⟨w, hw, hval⟩ := h
  obtain ⟨hfin, hmul⟩ := fpMul_of_value r ha hb hw hval
  refine ⟨?_, hfin, hmul⟩
  simp only [fpMulExact, not_nan_of_finite hfin, hfin, hmul, decide_true, Bool.not_false, Bool.and_true, Bool.or_true]

theorem fpAddExact_of_representable (r : NanRule) {a b : F32} (ha : fpIsFinite a = true) (hb : fpIsFinite b = true)
    (h : IsRepresentable ((fpVal a + fpVal b) * 2 ^ 149)) :
    fpAddExact r a b = true ∧ fpIsFinite (fpAdd r a b) = true ∧ fpVal (fpAdd r a b) = fpVal a + fpVal b := by
  obtain ⟨w, hw, hval⟩ := h
  obtain ⟨hfin, hadd⟩ := fpSum_of_value r .add ha hb hw (mul_right_cancel₀ (by positivity) hval)
  refine ⟨?_, hfin, hadd⟩
  simp only [fpAddExact, fpAdd, not_nan_of_finite hfin, hfin, hadd, decide_true, Bool.not_false, Bool.and_true,
    Bool.or_true]

/-! ### Lanes -/

theorem Sample.eq_of_lane_eq {x y : Sample} (h : ∀ l, x.lane l = y.lane l) : x = y := by
  obtain ⟨xi, xq⟩ := x
  exact congrArg₂ Sample.mk (h .i) (h .q)

end Sys2Proof

namespace Sys2Proof.Machine

/-- What `exactFrom` tests is exactness on values: every product and every partial sum from `acc` on is a binary32
value (41_filter R135). -/
theorem exactFrom_of_representable (r : NanRule) (pairs : List (F32 × F32)) : ∀ acc : F32, fpIsFinite acc = true →
    (∀ hx ∈ pairs, fpIsFinite hx.1 = true ∧ fpIsFinite hx.2 = true ∧ IsRepresentable (fpVal hx.1 * fpVal hx.2)) →
    (∀ n, IsRepresentable (fpVal acc * 2 ^ 149 + ((pairs.take n).map fun hx => fpVal hx.1 * fpVal hx.2).sum)) →
    exactFrom r acc pairs = true := by
  induction pairs with
  | nil => intros; rfl
  | cons hx pairs ih =>
    intro acc hacc hpairs hsums
    obtain ⟨hh, hx', hprod⟩ := hpairs hx List.mem_cons_self
    obtain ⟨hmulExact, hmulFin, hmul⟩ := fpMulExact_of_representable r hh hx' hprod
    have hsums' (n : Nat) : IsRepresentable ((fpVal acc + fpVal (fpMul r hx.1 hx.2)) * 2 ^ 149 +
        ((pairs.take n).map fun hx => fpVal hx.1 * fpVal hx.2).sum) := by
      have h := hsums (n + 1)
      rwa [List.take_succ_cons, List.map_cons, List.sum_cons, ← add_assoc, ← hmul, ← add_mul] at h
    obtain ⟨haddExact, haddFin, hadd⟩ := fpAddExact_of_representable r hacc hmulFin (by simpa using hsums' 0)
    have hrest := ih (fpAdd r acc (fpMul r hx.1 hx.2)) haddFin
      (fun y hy => hpairs y (List.mem_cons_of_mem _ hy))
      (fun n => by rw [hadd]; exact hsums' n)
    simp [exactFrom, hmulExact, haddExact, hrest]

/-- A reference sum of value 0 is `+0.0`: it starts from `+0.0`, and no step gives `-0.0` (41_filter R134). -/
theorem macLane_eq_zero (r : NanRule) (pairs : List (F32 × F32)) : fpVal (macLane r pairs) = 0 →
    macLane r pairs = F32.zero :=
  List.foldlRecOn (motive := fun acc => fpVal acc = 0 → acc = F32.zero) pairs _ (fun _ => rfl)
    fun _ hacc _ _ => fpSum_eq_zero hacc

/-- A NaN value makes the reference sum a NaN at its step, and the later steps keep it (41_filter R143). -/
theorem macLane_isNaN (r : NanRule) {pairs : List (F32 × F32)} (h : ∃ hx ∈ pairs, fpIsNaN hx.2 = true) :
    fpIsNaN (macLane r pairs) = true := by
  obtain ⟨hx, hmem, hnan⟩ := h
  obtain ⟨before, after, rfl⟩ := List.append_of_mem hmem
  have hprod : fpIsNaN (fpMul r hx.1 hx.2) = true := fpMul_of_invalid r (.inr (.inl hnan))
  rw [macLane, List.foldl_append, List.foldl_cons]
  exact List.foldlRecOn (motive := fun acc => fpIsNaN acc = true) after _ (fpSum_nan r .add (.inr hprod))
    fun _ hacc _ _ => fpSum_nan r .add (.inl hacc)

theorem firLane_isNaN (c : Config) (l : Lane) {pairs : List (F32 × F32)} (h : ∃ hx ∈ pairs, fpIsNaN hx.2 = true) :
    fpIsNaN (firLane c l pairs) = true := by
  cases harith : c.arith with
  | reference =>
    rw [firLane_reference harith]
    exact macLane_isNaN c.nan h
  | implementation =>
    have hany : (pairs.any fun hx => fpIsNaN hx.2) = true := List.any_eq_true.mpr h
    simp only [firLane, harith, implementationLane, if_pos hany]
    split
    · exact macLane_isNaN c.nan h
    · exact fpMakeNaN_isNaN _ _

/-- A lane's sum is made of that lane at the active taps alone. -/
theorem lanePairs_congr {c : Config} {h h' : List Sample} {l : Lane}
    (heq : ∀ k ∈ c.activeTaps, (histAt h k).lane l = (histAt h' k).lane l) : lanePairs c h l = lanePairs c h' l :=
  List.map_congr_left fun k hk => by rw [heq k hk]

/-- Settles O37: `macLane` over the pairs of the active taps. -/
theorem referenceOutputSumsActiveTaps : Obligations.ReferenceOutputSumsActiveTaps := by
  intro c hist harith
  refine ⟨Sample.eq_of_lane_eq fun l => ?_, c.activeTaps_pairwise_lt, c.mem_activeTaps⟩
  rw [firOut_lane, firLane_reference harith, macLane, lanePairs, List.foldl_map]
  cases l <;> rfl

/-- Settles O38: equal lanes at the active taps give equal pairs. -/
theorem lanesAreSeparate : Obligations.LanesAreSeparate := by
  intro c h h' l heq
  rw [firOut_lane, firOut_lane, lanePairs_congr heq]

/-- Settles O39: the values say that `exactFrom` holds, and then every ARITH gives the exact reference sum. -/
theorem exactSumsAreReturnedByEveryArith : Obligations.ExactSumsAreReturnedByEveryArith := by
  intro c hist l hvalid hwindow hprod hsum
  have hpairs : ∀ hx ∈ lanePairs c hist l,
      fpIsFinite hx.1 = true ∧ fpIsFinite hx.2 = true ∧ IsRepresentable (fpVal hx.1 * fpVal hx.2) :=
    List.forall_mem_map.mpr fun k hk => ⟨Config.tap_finite hvalid hk, hwindow k hk, hprod k hk⟩
  have hzero : fpVal F32.zero = 0 := by decide
  have hexact : exactFrom c.nan F32.zero (lanePairs c hist l) = true := by
    refine exactFrom_of_representable c.nan _ _ (by decide) hpairs fun n => ?_
    rw [hzero, zero_mul, zero_add, lanePairs, ← List.map_take, List.map_map]
    exact hsum n
  obtain ⟨hfin, hval⟩ := macLane_exact c.nan (lanePairs c hist l) F32.zero (by decide)
    (fun hx hmem => ⟨(hpairs hx hmem).1, (hpairs hx hmem).2.1⟩) hexact
  rw [firOut_lane, firLane_of_exact c l hexact]
  refine ⟨hfin, ?_, macLane_eq_zero c.nan _⟩
  rw [hzero, zero_mul, zero_add, lanePairs, List.map_map] at hval
  exact hval

/-- Settles O40: the lane's NaN stands in one of its pairs. -/
theorem nanAtActiveTapGivesNan : Obligations.NanAtActiveTapGivesNan := by
  rintro c hist l ⟨k, hk, hnan⟩
  rw [firOut_lane]
  exact firLane_isNaN c l ⟨_, List.mem_map_of_mem hk, hnan⟩

/-! ### Windows of zeros, with and without one unit sample -/

/-- Zeros of either sign at the active taps give `+0.0`, under every ARITH (41_filter R143). -/
theorem firOut_lane_of_zeros {c : Config} {hist : List Sample} {l : Lane} (hvalid : c.valid = true)
    (hzero : ∀ k ∈ c.activeTaps, fpIsZero ((histAt hist k).lane l) = true) : (firOut c hist).lane l = F32.zero := by
  have hprod : ∀ k ∈ c.activeTaps, fpVal (c.tap k) * fpVal ((histAt hist k).lane l) = 0 := fun k hk => by
    rw [(fpIsZero_iff_fpVal _).mp (hzero k hk), mul_zero]
  have hsum (n : Nat) :
      ((c.activeTaps.take n).map fun k => fpVal (c.tap k) * fpVal ((histAt hist k).lane l)).sum = 0 :=
    List.sum_eq_zero (List.forall_mem_map.mpr fun k hk => hprod k (List.mem_of_mem_take hk))
  obtain ⟨-, hval, hpos⟩ := exactSumsAreReturnedByEveryArith c hist l hvalid
    (fun k hk => finite_of_zero (hzero k hk)) (fun k hk => hprod k hk ▸ isRepresentable_zero)
    (fun n => hsum n ▸ isRepresentable_zero)
  have htotal := hsum c.activeTaps.length
  rw [List.take_length] at htotal
  exact hpos (by omega)

/-- A window that is 1.0 at the active tap `j` and zero at the others gives the tap's value, under every ARITH. -/
theorem firOut_lane_of_unit {c : Config} {hist : List Sample} {l : Lane} {j : Nat} (hvalid : c.valid = true)
    (hj : j ∈ c.activeTaps) (hunit : (histAt hist j).lane l = 0x3F800000#32)
    (hzero : ∀ k ∈ c.activeTaps, k ≠ j → fpIsZero ((histAt hist k).lane l) = true) :
    fpIsFinite ((firOut c hist).lane l) = true ∧ fpVal ((firOut c hist).lane l) = fpVal (c.tap j) := by
  have hone : fpVal 0x3F800000#32 = 2 ^ 149 := by decide
  have hprod : ∀ k ∈ c.activeTaps, k ≠ j → fpVal (c.tap k) * fpVal ((histAt hist k).lane l) = 0 :=
    fun k hk hne => by rw [(fpIsZero_iff_fpVal _).mp (hzero k hk hne), mul_zero]
  have htap : IsRepresentable (fpVal (c.tap j) * fpVal ((histAt hist j).lane l)) :=
    ⟨c.tap j, Config.tap_finite hvalid hj, by rw [hunit, hone]⟩
  have hsum (n : Nat) := List.sum_map_eq_nsmul_single (l := c.activeTaps.take n) j
    (fun k => fpVal (c.tap k) * fpVal ((histAt hist k).lane l))
    fun k hne hk => hprod k (List.mem_of_mem_take hk) hne
  have hcount (n : Nat) : (c.activeTaps.take n).count j ≤ 1 :=
    List.nodup_iff_count_le_one.mp (c.activeTaps_nodup.sublist (List.take_sublist _ _)) j
  obtain ⟨hfin, hval, -⟩ := exactSumsAreReturnedByEveryArith c hist l hvalid
    (fun k hk => by
      by_cases hkj : k = j
      · rw [hkj, hunit]; decide
      · exact finite_of_zero (hzero k hk hkj))
    (fun k hk => by
      by_cases hkj : k = j
      · rw [hkj]; exact htap
      · rw [hprod k hk hkj]; exact isRepresentable_zero)
    (fun n => by
      rw [hsum n]
      rcases Nat.le_one_iff_eq_zero_or_eq_one.mp (hcount n) with h | h
      · rw [h, zero_nsmul]; exact isRepresentable_zero
      · rw [h, one_nsmul]; exact htap)
  have htotal := hsum c.activeTaps.length
  rw [List.take_length, List.count_eq_one_of_mem c.activeTaps_nodup hj, one_nsmul] at htotal
  rw [htotal, hunit, hone] at hval
  exact ⟨hfin, mul_right_cancel₀ (by positivity) hval⟩

/-- Settles O41: `lanePairs_congr` on each lane, and `firOut_lane_of_zeros`. -/
theorem skippedTapsDoNotReachOutput : Obligations.SkippedTapsDoNotReachOutput := by
  refine fun c => ⟨fun h h' heq => Sample.eq_of_lane_eq fun l => ?_, fun _ hvalid h hzero => ?_⟩
  · exact lanesAreSeparate c h h' l fun k hk => by rw [heq k hk]
  · exact congrArg₂ Sample.mk (firOut_lane_of_zeros (l := .i) hvalid fun k hk => (hzero k hk).1)
      (firOut_lane_of_zeros (l := .q) hvalid fun k hk => (hzero k hk).2)

/-! ### The peak -/

theorem fpGt_false_iff {a b : F32} (hb : fpIsNaN b = false) :
    fpGt a b = false ↔ fpIsNaN a = true ∨ fpVal a ≤ fpVal b := by
  cases ha : fpIsNaN a <;> simp [fpGt, ha, hb]

/-- One step of the peak: the new peak is one of the two, and neither `p` nor what was not above the old peak is
above it (41_filter R136). -/
theorem raisePeak_cases {peak p : F32} (hpeak : fpIsNaN peak = false) :
    (raisePeak peak p = peak ∨ raisePeak peak p = p) ∧ fpGt p (raisePeak peak p) = false ∧
    ∀ q, fpGt q peak = false → fpGt q (raisePeak peak p) = false := by
  unfold raisePeak
  split
  · rename_i hgt
    have hp : fpIsNaN p = false := by
      simp only [fpGt, Bool.and_eq_true, Bool.not_eq_true'] at hgt
      exact hgt.1.1
    have hlt : fpVal peak < fpVal p := (fpGt_iff hp hpeak).mp hgt
    refine ⟨.inr rfl, (fpGt_false_iff hp).mpr (.inr le_rfl), fun q hq => ?_⟩
    exact (fpGt_false_iff hp).mpr (((fpGt_false_iff hpeak).mp hq).imp_right (·.trans hlt.le))
  · rename_i hgt
    exact ⟨.inl rfl, by simpa using hgt, fun q hq => hq⟩

theorem peakPower_concat (r : NanRule) (ys : List Sample) (y : Sample) :
    peakPower r (ys ++ [y]) = raisePeak (peakPower r ys) (pow r y) := by
  simp [peakPower]

/-- By induction from the last output: the peak is `+0.0` or an output's power, and no power is above it. -/
theorem peakPower_greatest (r : NanRule) (ys : List Sample) :
    (peakPower r ys = F32.zero ∨ ∃ y ∈ ys, peakPower r ys = pow r y) ∧
    ∀ y ∈ ys, fpGt (pow r y) (peakPower r ys) = false := by
  induction ys using List.reverseRecOn with
  | nil => exact ⟨.inl rfl, by simp⟩
  | append_singleton ys y ih =>
    obtain ⟨hfrom, hmax⟩ := ih
    obtain ⟨hcase, hnew, hold⟩ := raisePeak_cases (p := pow r y) (peakPower_ok r ys).1
    rw [peakPower_concat]
    constructor
    · rcases hcase with hcase | hcase <;> rw [hcase]
      · exact hfrom.imp_right fun ⟨z, hz, heq⟩ => ⟨z, List.mem_append_left _ hz, heq⟩
      · exact .inr ⟨y, by simp, rfl⟩
    · intro z hz
      rcases List.mem_append.mp hz with hz | hz
      · exact hold _ (hmax z hz)
      · rwa [List.mem_singleton.mp hz]

/-- Settles O43: `peakPower_ok` and `peakPower_greatest`. -/
theorem peakIsTheGreatestPower : Obligations.PeakIsTheGreatestPower := fun r ys =>
  have ⟨hnan, hsign⟩ := peakPower_ok r ys
  ⟨hnan, hsign, peakPower_greatest r ys⟩

/-! ### The commands -/

/-- A command other than a read, on a port of its row, answers a next state and has its effect. -/
theorem exec_effect {i : Instr} {s : State} (hread : ∀ len, i ≠ .fifoRead len) (hp : s.active ∈ i.opcode.ports) :
    ∃ t, exec i s = .next t ∧ Effect s t i :=
  have ⟨t, ht⟩ := exec_answers (.inl hread)
  ⟨t, ht, effect_of_exec ht hp⟩

/-- Settles O34: FIR.RESET's effect on port P. -/
theorem firResetZeroesHistory : Obligations.FirResetZeroesHistory := by
  intro s hp
  obtain ⟨t, ht, rfl⟩ := exec_effect (i := .firReset) (fun _ => Instr.noConfusion) (List.mem_singleton.mpr hp)
  exact ht

/-- The state after an accepted FIR.PROCESS (41_filter R138). -/
def State.filtered (s : State) (xs : List Sample) : State :=
  { s with
    hist := firHistory s.hist xs
    results := s.answered ⟨.ok, peakPower s.cfg.nan (firOutputs s.cfg s.hist xs),
      .words (wordsOf (firOutputs s.cfg s.hist xs))⟩ }

section
variable {s : State} {len : BitVec 24} (hp : s.active = .producer) (xs : List Sample)
include hp

theorem exec_firProcess_badLen (hbad : badLength s.cfg len = true) :
    exec (.firProcess len (xs.flatMap fun x => [x.i, x.q])) s =
      .next { s with results := s.answered ⟨.badLen, 0, .none⟩ } := by
  obtain ⟨t, ht, ⟨-, rfl⟩ | ⟨hgood, -⟩⟩ := exec_effect (i := .firProcess len (xs.flatMap fun x => [x.i, x.q]))
    (fun _ => Instr.noConfusion) (List.mem_singleton.mpr hp)
  · exact ht
  · simp [hbad] at hgood

theorem exec_firProcess_accepted (heven : len.toNat % 2 = 0) (hmin : s.cfg.minIn ≤ len.toNat) :
    exec (.firProcess len (xs.flatMap fun x => [x.i, x.q])) s = .next (s.filtered xs) := by
  obtain ⟨t, ht, ⟨hbad, -⟩ | ⟨-, rfl⟩⟩ := exec_effect (i := .firProcess len (xs.flatMap fun x => [x.i, x.q]))
    (fun _ => Instr.noConfusion) (List.mem_singleton.mpr hp)
  · simp [badLength_false_iff.mpr ⟨heven, hmin⟩] at hbad
  · rwa [samplesOf_flatMap] at ht

end

/-- Output `n` comes from the window that ends at input sample `2n+1` (41_filter R133). -/
theorem firOutputs_get_windowAt {c : Config} {hist xs : List Sample} {n : Nat} (hT : hist.length = c.tapCount)
    (hn : 2 * n + 1 < xs.length) :
    (firOutputs c hist xs)[n]? = some (firOut c (windowAt c hist xs (2 * n + 1))) := by
  rw [firOutputs_get c xs hist n hn, firHistory_eq, hT, windowAt]

/-- Settles O35: the two outcomes of FIR.PROCESS, its outputs read from their windows. -/
theorem firProcessFiltersAndDecimates : Obligations.FirProcessFiltersAndDecimates := by
  intro s len xs hp hT hlen
  refine ⟨fun hbad => exec_firProcess_badLen hp xs (badLength_iff.mpr hbad), fun heven hmin =>
    ⟨firOutputs s.cfg s.hist xs, by rw [firOutputs_length, hlen], fun n hn => ?_, ?_⟩⟩
  · exact firOutputs_get_windowAt hT (by omega)
  · rw [exec_firProcess_accepted hp xs heven hmin, State.filtered, firHistory_eq, hT]
    rfl

theorem wordsOf_append (ys zs : List Sample) : wordsOf (ys ++ zs) = wordsOf ys ++ wordsOf zs :=
  List.flatMap_append

/-- Settles O36: `firOutputs` and `firHistory` of a joined block (41_filter R142). -/
theorem blocksMayBeSplit : Obligations.BlocksMayBeSplit := by
  intro s len₁ len₂ xs₁ xs₂ hp hlen₁ hlen₂ hfits heven₁ heven₂ hmin₁ hmin₂
  have hadd : (len₁ + len₂).toNat = len₁.toNat + len₂.toNat := BitVec.toNat_add_of_lt hfits
  refine ⟨s.filtered xs₁, (s.filtered xs₁).filtered xs₂, s.filtered (xs₁ ++ xs₂), _, _,
    peakPower s.cfg.nan (firOutputs s.cfg s.hist (xs₁ ++ xs₂)), _, _, exec_firProcess_accepted hp xs₁ heven₁ hmin₁,
    exec_firProcess_accepted (s := s.filtered xs₁) hp xs₂ heven₂ hmin₂,
    exec_firProcess_accepted hp (xs₁ ++ xs₂) (by omega) (by omega), rfl, rfl, ?_, (firHistory_append _ _ _).symm⟩
  rw [State.filtered, firOutputs_append s.cfg xs₂ xs₁ s.hist (hlen₁ ▸ heven₁), wordsOf_append]
  rfl

/-! ### The impulse response -/

/-- Sample `m` of a block whose sample `i0` is (1.0, +0.0) and whose others are zero. -/
def impulse (i0 m : Nat) : Sample := ⟨if m = i0 then 0x3F800000#32 else F32.zero, F32.zero⟩

/-- The window that ends at sample `m` of the impulse block, after FIR.RESET: position `k` holds sample `m - k`. -/
theorem histAt_windowAt_impulse (c : Config) {len i0 m k : Nat} (hm : m < len) (hk : k < c.tapCount) :
    histAt (windowAt c (List.replicate c.tapCount Sample.zero) ((List.range len).map (impulse i0)) m) k =
      ⟨if k + i0 = m then 0x3F800000#32 else F32.zero, F32.zero⟩ := by
  have hlen : (((List.range len).map (impulse i0)).take (m + 1)).reverse.length = m + 1 := by simp; omega
  rw [histAt, windowAt, List.getD_eq_getElem?_getD, List.getElem?_take_of_lt hk]
  by_cases hkm : k ≤ m
  · rw [List.getElem?_append_left (by omega), List.getElem?_reverse (by simpa using by omega)]
    have hi0 : m - k = i0 ↔ k + i0 = m := by omega
    simp [impulse, hi0, show min (m + 1) len - 1 - k = m - k by omega, show m - k < m + 1 by omega,
      show m - k < len by omega]
  · rw [List.getElem?_append_right (by omega), hlen, List.getElem?_replicate_of_lt (by omega),
      if_neg (show ¬ k + i0 = m by omega)]
    rfl

/-- The output from a window that is (1.0, +0.0) at position `m - i0` and zero elsewhere (41_filter R140). -/
theorem firOut_of_impulse {c : Config} {hist : List Sample} {i0 m : Nat} (hvalid : c.valid = true)
    (hw : ∀ k ∈ c.activeTaps, histAt hist k = ⟨if k + i0 = m then 0x3F800000#32 else F32.zero, F32.zero⟩) :
    (firOut c hist).q = F32.zero ∧ fpIsFinite (firOut c hist).i = true ∧
    (i0 ≤ m → m - i0 ∈ c.activeTaps → fpVal (firOut c hist).i = fpVal (c.tap (m - i0))) ∧
    (i0 ≤ m → m - i0 ∉ c.activeTaps → (firOut c hist).i = F32.zero) ∧
    (m < i0 → (firOut c hist).i = F32.zero) := by
  refine ⟨firOut_lane_of_zeros (l := .q) hvalid fun k hk => by rw [hw k hk]; exact fpIsZero_zero, ?_⟩
  by_cases hj : i0 ≤ m ∧ m - i0 ∈ c.activeTaps
  · obtain ⟨hle, hmem⟩ := hj
    obtain ⟨hfin, hval⟩ := firOut_lane_of_unit (l := .i) hvalid hmem
      (by rw [hw _ hmem, Sample.lane, if_pos (Nat.sub_add_cancel hle)])
      fun k hk hne => by rw [hw k hk, Sample.lane, if_neg (by omega)]; exact fpIsZero_zero
    exact ⟨hfin, fun _ _ => hval, fun _ hnot => absurd hmem hnot, fun hlt => absurd hle (Nat.not_le.mpr hlt)⟩
  · have hzero : (firOut c hist).i = F32.zero := firOut_lane_of_zeros (l := .i) hvalid fun k hk => by
      have hne : k + i0 ≠ m := fun heq => hj ⟨by omega, by rwa [← heq, Nat.add_sub_cancel]⟩
      rw [hw k hk, Sample.lane, if_neg hne]
      exact fpIsZero_zero
    exact ⟨hzero ▸ by decide, fun hle hmem => absurd ⟨hle, hmem⟩ hj, fun _ _ => hzero, fun _ => hzero⟩

/-- Settles O42: after FIR.RESET every window of the block is an impulse window or zero. -/
theorem impulseResponseIsTheTaps : Obligations.ImpulseResponseIsTheTaps := by
  intro s len i0 hp hvalid _ _ heven hmin
  have hlen : ((List.range len.toNat).map (impulse i0)).length = len.toNat := by simp
  obtain ⟨-, hgood⟩ := firProcessFiltersAndDecimates
    { s with hist := List.replicate s.cfg.tapCount Sample.zero, results := s.answered ⟨.ok, 0, .none⟩ } len
    ((List.range len.toNat).map (impulse i0)) hp List.length_replicate hlen
  obtain ⟨ys, hys, hout, hexec⟩ := hgood heven hmin
  rw [List.flatMap_map] at hexec
  refine ⟨_, _, _, ys, firResetZeroesHistory s hp, hexec, rfl, hys, fun n y hy => ?_⟩
  have hn : n < len.toNat / 2 := hys ▸ (List.getElem?_eq_some_iff.mp hy).1
  obtain rfl : _ = y := Option.some.inj ((hout n hn).symm.trans hy)
  exact firOut_of_impulse hvalid fun k hk =>
    histAt_windowAt_impulse s.cfg (by omega) ((s.cfg.mem_activeTaps k).mp hk).1

end Sys2Proof.Machine
end

section
/-! The LT unit's commands (42_level_tracker R162 to R167): that no step changes the configuration, what each command
does, and which commands write the level. -/

namespace Sys2Proof.Machine

/-! ### The configuration -/

/-- No command writes the configuration (42_level_tracker R160). -/
theorem Effect.cfg {i : Instr} {s t : State} (h : Effect s t i) : t.cfg = s.cfg := by
  cases i with
  | firReset | ltReset | ltUpdate | ltRead | fifoReset | fifoAvailRd | fifoAvailWr => subst h; rfl
  | firProcess => obtain ⟨-, rfl⟩ | ⟨-, rfl⟩ := h <;> rfl
  | fifoWrite => obtain ⟨-, rfl⟩ | ⟨-, -, rfl⟩ | ⟨-, -, rfl⟩ := h <;> rfl
  | fifoRead => obtain ⟨-, rfl⟩ | ⟨-, -, -, -, rfl⟩ | ⟨-, rfl⟩ := h <;> rfl
  | pipeProcess => obtain ⟨-, rfl⟩ | ⟨-, -, -, -, -, ⟨-, rfl⟩ | ⟨-, rfl⟩⟩ := h <;> rfl

theorem TurnEffect.cfg {s t : State} (h : TurnEffect s t) : t.cfg = s.cfg := by
  cases h with
  | idle h | illegal h | timedOut _ h => subst h; rfl
  | command i _ h => exact h.cfg
  | readDone len _ h => obtain ⟨-, bs, -, rfl⟩ := h; rfl

theorem step_cfg {s t : State} (h : step s = .next t) : t.cfg = s.cfg := by
  obtain rfl | ⟨ps, box, hturn⟩ := step_turnEffect h
  · rfl
  · exact hturn.cfg

/-- Settles O5: no turn has an effect on the configuration. -/
theorem stepKeepsConfiguration : Obligations.StepKeepsConfiguration := by
  intro s t h
  simp [step_cfg h]

/-! ### What the commands do -/

/-- Settles O47: LT.RESET's effect on port P. -/
theorem ltResetSetsNeutralLevel : Obligations.LtResetSetsNeutralLevel := by
  intro s hp
  obtain ⟨t, ht, rfl⟩ := exec_effect (i := .ltReset) (fun _ => Instr.noConfusion) (List.mem_singleton.mpr hp)
  exact ht

/-- Settles O49: LT.READ's effect, which every port may have. -/
theorem ltReadReturnsLevel : Obligations.LtReadReturnsLevel := by
  intro s
  obtain ⟨t, ht, rfl⟩ := exec_effect (i := .ltRead) (fun _ => Instr.noConfusion) (mem_all_ports s.active)
  exact ht

/-- The update law under the reference arithmetic (42_level_tracker R161). -/
theorem ltStep_reference {c : Config} (h : c.arith = .reference) (l p : F32) :
    ltStep c l p = fpAdd c.nan l (fpMul c.nan (ltCoefficient c l p) (fpSub c.nan p l)) := by
  simp [ltStep, h]

theorem ltStep_implementation {c : Config} (h : c.arith = .implementation) (l p : F32) :
    ltStep c l p = Config.implLt (ltCoefficient c l p) l p := by
  simp [ltStep, h]

/-- Settles O48: LT.UPDATE's effect on port P, with the contract as R165 words it (`outOfContract_iff`). -/
theorem ltUpdateAppliesUpdateLaw : Obligations.LtUpdateAppliesUpdateLaw := by
  intro s p hp
  obtain ⟨t, ht, rfl⟩ := exec_effect (i := .ltUpdate p) (fun _ => Instr.noConfusion) (List.mem_singleton.mpr hp)
  refine ⟨ltStep s.cfg s.level p, ?_, fun h => ltStep_reference h s.level p,
    fun h => ltStep_implementation h s.level p⟩
  rw [ht, if_congr (outOfContract_iff p) rfl rfl]
  rfl

/-! ### The announcement of the level -/

/-- The commands that write the level: LT.RESET, LT.UPDATE, and a PIPE.PROCESS whose length is accepted
(42_level_tracker R167). -/
def WritesLevel (c : Config) (i : Instr) : Prop :=
  i = .ltReset ∨ (∃ p, i = .ltUpdate p) ∨
    ∃ len payload, i = .pipeProcess len payload ∧ len.toNat % 2 = 0 ∧ c.minIn ≤ len.toNat

theorem writesLevel_pipeProcess {c : Config} {len : BitVec 24} {payload : List F32} :
    WritesLevel c (.pipeProcess len payload) ↔ badLength c len = false := by
  simp [WritesLevel, badLength_false_iff]

/-- Only port P may issue a command that writes the level. -/
theorem WritesLevel.ports {c : Config} {i : Instr} (h : WritesLevel c i) : i.opcode.ports = [.producer] := by
  obtain rfl | ⟨p, rfl⟩ | ⟨len, payload, rfl, -⟩ := h <;> rfl

/-- What a command does to the level, with the events it emits: it leaves it, or announces the new one first. -/
inductive LevelChange (s t : State) (writes : Prop) : Prop
  | kept (hw : ¬ writes) (es : List Event) (hevents : t.events = s.events ++ es) (hes : ∀ v, .level v ∉ es)
      (hlevel : t.level = s.level)
  | announced (hw : writes) (es : List Event) (hevents : t.events = s.events ++ .level t.level :: es)
      (hes : ∀ v, .level v ∉ es)

theorem LevelChange.silent {s t : State} {writes : Prop} (hw : ¬ writes) (hevents : t.events = s.events)
    (hlevel : t.level = s.level) : LevelChange s t writes :=
  .kept hw [] (by simp [hevents]) (by simp) hlevel

/-- Each command, on a port of its row, announces the level exactly if it writes it. -/
theorem Effect.levelChange {i : Instr} {s t : State} (h : Effect s t i) : LevelChange s t (WritesLevel s.cfg i) := by
  cases i with
  | firReset | ltRead | fifoAvailRd | fifoAvailWr => subst h; exact .silent (by simp [WritesLevel]) rfl rfl
  | ltReset => subst h; exact .announced (.inl rfl) [] rfl (by simp)
  | ltUpdate p => subst h; exact .announced (.inr (.inl ⟨p, rfl⟩)) [] rfl (by simp)
  | firProcess => obtain ⟨-, rfl⟩ | ⟨-, rfl⟩ := h <;> exact .silent (by simp [WritesLevel]) rfl rfl
  | fifoReset =>
    subst h
    refine .kept (by simp [WritesLevel]) (if s.count = 0 then [] else [.occ 0]) ?_ ?_ rfl
    · by_cases hc : s.count = 0 <;> simp [hc]
    · by_cases hc : s.count = 0 <;> simp [hc]
  | fifoWrite =>
    obtain ⟨-, rfl⟩ | ⟨-, -, rfl⟩ | ⟨-, -, rfl⟩ := h
    · exact .silent (by simp [WritesLevel]) rfl rfl
    · exact .kept (by simp [WritesLevel]) _ rfl (by simp) rfl
    · exact .kept (by simp [WritesLevel]) _ rfl (by simp) rfl
  | fifoRead =>
    obtain ⟨-, rfl⟩ | ⟨-, -, -, -, rfl⟩ | ⟨-, rfl⟩ := h
    · exact .silent (by simp [WritesLevel]) rfl rfl
    · exact .kept (by simp [WritesLevel]) _ rfl (by simp) rfl
    · exact .silent (by simp [WritesLevel]) rfl rfl
  | pipeProcess =>
    obtain ⟨hbad, rfl⟩ | ⟨hgood, -, -, -, -, ⟨-, rfl⟩ | ⟨-, rfl⟩⟩ := h
    · exact .silent (by simp [writesLevel_pipeProcess, hbad]) rfl rfl
    · exact .announced (writesLevel_pipeProcess.mpr hgood) _ rfl (by simp)
    · exact .announced (writesLevel_pipeProcess.mpr hgood) _ rfl (by simp)

/-- Each command, whatever its port, announces the level exactly if it writes it there. -/
theorem exec_levelChange {i : Instr} {s t : State} (h : exec i s = .next t) :
    LevelChange s t (s.active = .producer ∧ WritesLevel s.cfg i) := by
  obtain ⟨hport, rfl⟩ | ⟨hport, heff⟩ := exec_next h
  · exact .silent (fun ⟨hp, hw⟩ => hport (by simp [hw.ports, hp])) rfl rfl
  · have hiff : s.active = .producer ∧ WritesLevel s.cfg i ↔ WritesLevel s.cfg i :=
      and_iff_right_of_imp fun hw => by simpa [hw.ports] using hport
    rw [hiff]
    exact heff.levelChange

/-- Settles O50: of the two cases of `exec_levelChange`, only one writes the level, and it announces it. -/
theorem everyLevelWriteIsAnnounced : Obligations.EveryLevelWriteIsAnnounced := by
  intro i s t h
  cases exec_levelChange h with
  | kept hw es hevents hes hlevel =>
    exact ⟨es, _, hevents, .rfl, fun hwrites => absurd hwrites hw, fun _ => ⟨hes, hlevel⟩⟩
  | announced hw es hevents hes =>
    exact ⟨_, _, hevents, .rfl, fun _ => ⟨rfl, hes⟩, fun hnot => absurd hw hnot⟩

end Sys2Proof.Machine
end

section
/-! The update law under the reference arithmetic (42_level_tracker R161, R163, R168): sums and products between
bounds, then the corner cases of the tracker and its range. -/

namespace Sys2Proof

/-! ### Values of one magnitude -/

/-- A value equal to a finite one is finite. -/
theorem finite_of_fpVal_eq {a b : F32} (hb : fpIsFinite b = true) (h : fpVal a = fpVal b) : fpIsFinite a = true := by
  have hmag : fpMag a = fpMag b := by rw [← fpVal_natAbs, ← fpVal_natAbs, h]
  rw [fpMag_eq, fpMag_eq] at hmag
  rw [fpIsFinite_iff] at hb ⊢
  rwa [fpMagBits_strictMono.injective hmag]

theorem fpSign_of_pos {w : F32} (h : 0 < fpVal w) : fpSign w = false := by
  rw [Bool.eq_false_iff]
  intro hs
  have := fpVal_nonpos_of_sign hs
  omega

/-- A product of finite values one of which is a zero is a zero. -/
theorem fpMul_eq_zero (r : NanRule) {a b : F32} (ha : fpIsFinite a = true) (hb : fpIsFinite b = true)
    (h : fpVal a * fpVal b = 0) : fpIsZero (fpMul r a b) = true := by
  obtain ⟨-, -, -, hfin⟩ := specialProductsFollowIeee754 r a b
  exact (hfin ha hb).2 h

/-- A positive finite factor keeps an infinity. -/
theorem fpMul_pos_inf (r : NanRule) {a w : F32} (ha : fpIsFinite a = true) (hpos : 0 < fpVal a)
    (hw : fpIsInf w = true) : fpMul r a w = w := by
  have hvalid : ¬ FpMulInvalid a w := by
    have hzero : fpIsZero a = false := by
      rw [Bool.eq_false_iff, ne_eq, fpIsZero_iff_fpVal]
      exact hpos.ne'
    simp [FpMulInvalid, not_nan_of_finite ha, not_nan_of_inf hw, not_inf_of_finite ha, hzero]
  rw [fpMul_of_inf r hvalid (.inr hw), fpSign_of_pos hpos, Bool.false_bne, ← (fpIsInf_iff w).mp hw, fpPack_self]

/-! ### Results between bounds -/

/-- The values whose encoding has at most the low bits `m` have at most its magnitude. -/
theorem abs_fpVal_le {w : F32} {m : Nat} (h : w.toNat % 2 ^ 31 ≤ m) : |fpVal w| ≤ fpMagBits m := by
  rw [Int.abs_eq_natAbs, fpVal_natAbs, fpMag_eq]
  exact_mod_cast fpMagBits_strictMono.monotone h

/-- Every finite value is below the magnitude from which sums and products overflow. -/
theorem abs_fpVal_lt {w : F32} (h : fpIsFinite w = true) : |fpVal w| < (2 ^ 25 - 1) * 2 ^ 252 := by
  rw [fpIsFinite_iff] at h
  have hmax : (fpMagBits 0x7F7FFFFF : Int) < (2 ^ 25 - 1) * 2 ^ 252 := by decide
  exact (abs_fpVal_le (m := 0x7F7FFFFF) (by omega)).trans_lt hmax

/-- A finite value below 2^127 is at most the greatest of them. -/
theorem abs_fpVal_le_of_fpExp {w : F32} (h : fpExp w ≤ 253) : |fpVal w| ≤ (2 ^ 24 - 1) * 2 ^ 252 := by
  have hmax : (fpMagBits 0x7EFFFFFF : Int) = (2 ^ 24 - 1) * 2 ^ 252 := by decide
  rw [fpExp_eq] at h
  exact hmax ▸ abs_fpVal_le (by omega)

/-- A value nearest to `x` is on `x`'s side of every binary32 value. -/
theorem IsNearestEven.le_of_le {v w : F32} {sh : Nat} {x : Int} (h : IsNearestEven v sh x)
    (hw : x ≤ fpVal w * 2 ^ sh) : fpVal v ≤ fpVal w := by
  obtain ⟨hnear, -⟩ := h w
  by_contra hlt
  have hscaled : fpVal w * 2 ^ sh < fpVal v * 2 ^ sh := mul_lt_mul_of_pos_right (not_le.mp hlt) (by positivity)
  rw [abs_of_nonneg (by omega), abs_of_nonneg (by omega)] at hnear
  omega

theorem IsNearestEven.le_of_ge {v w : F32} {sh : Nat} {x : Int} (h : IsNearestEven v sh x)
    (hw : fpVal w * 2 ^ sh ≤ x) : fpVal w ≤ fpVal v := by
  obtain ⟨hnear, -⟩ := h w
  by_contra hlt
  have hscaled : fpVal v * 2 ^ sh < fpVal w * 2 ^ sh := mul_lt_mul_of_pos_right (not_le.mp hlt) (by positivity)
  rw [abs_of_nonpos (by omega), abs_of_nonpos (by omega)] at hnear
  omega

/-- Between finite values nothing overflows. -/
theorem abs_lt_of_between {lo hi : F32} {x : Int} {sh : Nat} (hlo : fpIsFinite lo = true) (hhi : fpIsFinite hi = true)
    (hle : fpVal lo * 2 ^ sh ≤ x) (hge : x ≤ fpVal hi * 2 ^ sh) : |x| < (2 ^ 25 - 1) * 2 ^ 252 * 2 ^ sh := by
  have hpos : (0 : Int) < 2 ^ sh := by positivity
  rw [abs_lt, ← neg_mul]
  exact ⟨(mul_lt_mul_of_pos_right (abs_lt.mp (abs_fpVal_lt hlo)).1 hpos).trans_le hle,
    hge.trans_lt (mul_lt_mul_of_pos_right (abs_lt.mp (abs_fpVal_lt hhi)).2 hpos)⟩

/-- A difference whose exact value lies between two finite values does so after rounding. -/
theorem fpSub_between (r : NanRule) {a b lo hi : F32} (ha : fpIsFinite a = true) (hb : fpIsFinite b = true)
    (hlo : fpIsFinite lo = true) (hhi : fpIsFinite hi = true) (hle : fpVal lo ≤ fpVal a - fpVal b)
    (hge : fpVal a - fpVal b ≤ fpVal hi) :
    fpIsFinite (fpSub r a b) = true ∧ fpVal lo ≤ fpVal (fpSub r a b) ∧ fpVal (fpSub r a b) ≤ fpVal hi := by
  have hfin : fpIsFinite (fpSub r a b) = true := by
    refine fpSum_isFinite r .sub ha ((fpIsFinite_neg b).trans hb) ?_
    rw [fpVal_neg, ← sub_eq_add_neg]
    simpa using abs_lt_of_between (sh := 0) hlo hhi (by simpa using hle) (by simpa using hge)
  have hnear := isNearestEven_fpSub r ha hb hfin
  exact ⟨hfin, hnear.le_of_ge (by simpa using hle), hnear.le_of_le (by simpa using hge)⟩

/-- A product whose exact value lies between two finite values does so after rounding. -/
theorem fpMul_between (r : NanRule) {a b lo hi : F32} (ha : fpIsFinite a = true) (hb : fpIsFinite b = true)
    (hlo : fpIsFinite lo = true) (hhi : fpIsFinite hi = true) (hle : fpVal lo * 2 ^ 149 ≤ fpVal a * fpVal b)
    (hge : fpVal a * fpVal b ≤ fpVal hi * 2 ^ 149) :
    fpIsFinite (fpMul r a b) = true ∧ fpVal lo ≤ fpVal (fpMul r a b) ∧ fpVal (fpMul r a b) ≤ fpVal hi := by
  have hfin : fpIsFinite (fpMul r a b) = true := by
    have hlt := abs_lt_of_between hlo hhi hle hge
    rw [Int.abs_eq_natAbs, Int.natAbs_mul, fpVal_natAbs, fpVal_natAbs] at hlt
    rw [fpMul_finite r ha hb, fpIsFinite_pack_fpRound_iff]
    omega
  have hnear := isNearestEven_fpMul r ha hb hfin
  exact ⟨hfin, hnear.le_of_ge hle, hnear.le_of_le hge⟩

/-- A sum that is not negative, even if it overflows, is no NaN and not negative. -/
theorem fpSum_nonneg (r : NanRule) (op : FpOp) {a b : F32} (ha : fpIsFinite a = true) (hb : fpIsFinite b = true)
    (h : 0 ≤ fpVal a + fpVal b) : fpIsNaN (fpSum r op a b) = false ∧ 0 ≤ fpVal (fpSum r op a b) := by
  have hle := fpRound_le (fpVal a + fpVal b).natAbs 0
  obtain ⟨s, hs, hx⟩ := fpSum_eq_pack r op ha hb
  rw [hs, Bool.eq_false_iff, ne_eq, fpIsNaN_iff, pack_mod s (fpRound_lt _ _), fpVal_pack s (fpRound_lt _ _)]
  refine ⟨by omega, ?_⟩
  cases s with
  | false => exact Int.natCast_nonneg _
  | true =>
    have hzero : (fpVal a + fpVal b).natAbs = 0 := by simp only [reduceIte] at hx; omega
    simp [hzero, fpMagBits]

end Sys2Proof

namespace Sys2Proof.Machine

/-! ### The tracker -/

/-- The coefficient is finite, above 0 and at most 1, whichever it is (00_scope R9). -/
theorem ltCoefficient_bounds {c : Config} (h : c.valid = true) (l p : F32) :
    fpIsFinite (ltCoefficient c l p) = true ∧ 0 < fpVal (ltCoefficient c l p) ∧
      fpVal (ltCoefficient c l p) ≤ 2 ^ 149 := by
  simp only [Config.valid, Bool.and_eq_true, smoothingValid_iff] at h
  obtain ⟨⟨⟨⟨-, hattack, hrelease, hpos, hle, hone⟩, -⟩, -⟩, -⟩ := h
  unfold ltCoefficient
  split
  · exact ⟨hattack, hpos.trans_le hle, hone⟩
  · exact ⟨hrelease, hpos, hle.trans hone⟩

/-- Where the power equals the level the step adds a zero. -/
theorem ltStep_of_eq {c : Config} (hc : c.arith = .reference) (hvalid : c.valid = true) {l p : F32}
    (hl : fpIsFinite l = true) (heq : fpVal p = fpVal l) :
    fpIsFinite (ltStep c l p) = true ∧ fpVal (ltStep c l p) = fpVal l := by
  obtain ⟨hcoef, -, -⟩ := ltCoefficient_bounds hvalid l p
  have hzfin : fpIsFinite F32.zero = true := by decide
  have hzval : fpVal F32.zero = 0 := by decide
  obtain ⟨hdfin, hdlo, hdhi⟩ := fpSub_between c.nan (finite_of_fpVal_eq hl heq) hl hzfin hzfin (by omega) (by omega)
  have hmul := fpMul_eq_zero c.nan hcoef hdfin (mul_eq_zero_of_right _ (by omega))
  have hsum : fpVal l = fpVal l + fpVal (fpMul c.nan (ltCoefficient c l p) (fpSub c.nan p l)) := by
    rw [(fpIsZero_iff_fpVal _).mp hmul, add_zero]
  rw [ltStep_reference hc]
  obtain ⟨hfin, hval⟩ := fpSum_of_value c.nan .add hl (finite_of_zero hmul) hl hsum
  exact ⟨hfin, hval.trans hsum.symm⟩

/-- Settles O51: a sum with a NaN is a NaN, and `ltStep_of_eq`. -/
theorem nanLevelStaysAndEqualPowerKeeps : Obligations.NanLevelStaysAndEqualPowerKeeps := by
  intro c hc hvalid l p
  refine ⟨fun hl => ?_, fun hl heq => ?_⟩
  · rw [ltStep_reference hc]
    exact fpSum_nan c.nan .add (.inl hl)
  · simp only [fpEq, Bool.and_eq_true, decide_eq_true_eq] at heq
    exact ltStep_of_eq hc hvalid hl heq.2

/-- Settles O52: the difference is an infinity and the coefficient keeps it; to a finite level it is added, to the
level `+Inf` it is opposite. -/
theorem infinitePowerDrivesLevelToInfinity : Obligations.InfinitePowerDrivesLevelToInfinity := by
  intro c hc hvalid
  refine ⟨fun l hl => ?_, fun p hp => ?_⟩
  · obtain ⟨hcoef, hpos, -⟩ := ltCoefficient_bounds hvalid l 0x7F800000#32
    have hinf : fpIsInf 0x7F800000#32 = true := by decide
    have hsub : fpSub c.nan 0x7F800000#32 l = 0x7F800000#32 :=
      fpSum_inf_finite c.nan .sub hinf ((fpIsFinite_neg l).trans hl)
    rw [ltStep_reference hc, hsub, fpMul_pos_inf c.nan hcoef hpos hinf]
    exact fpSum_finite_inf c.nan .add hl hinf
  · obtain ⟨hcoef, hpos, -⟩ := ltCoefficient_bounds hvalid 0x7F800000#32 p
    have hinf : fpIsInf (fpNeg 0x7F800000#32) = true := by decide
    have hsub : fpSub c.nan p 0x7F800000#32 = fpNeg 0x7F800000#32 := fpSum_finite_inf c.nan .sub hp hinf
    rw [ltStep_reference hc, hsub, fpMul_pos_inf c.nan hcoef hpos hinf]
    exact fpSum_inf_opposite c.nan .add (by decide) hinf (by decide)

/-! ### The range -/

theorem fpInRange_iff (w : F32) : fpInRange w = true ↔ fpIsFinite w = true ∧ 0 ≤ fpVal w := by
  simp [fpInRange]

/-- The rounded correction `a *f (p -f l)` lies between `-l` and `p`: each of the two roundings keeps the bounds, which
are binary32 values, and `0 < a ≤ 1` does too (42_level_tracker R168). -/
theorem ltCorrection_between {c : Config} (hvalid : c.valid = true) {l p : F32} (hl : fpInRange l = true)
    (hp : fpInRange p = true) :
    fpIsFinite (fpMul c.nan (ltCoefficient c l p) (fpSub c.nan p l)) = true ∧
    -fpVal l ≤ fpVal (fpMul c.nan (ltCoefficient c l p) (fpSub c.nan p l)) ∧
    fpVal (fpMul c.nan (ltCoefficient c l p) (fpSub c.nan p l)) ≤ fpVal p := by
  obtain ⟨hlfin, hl0⟩ := (fpInRange_iff l).mp hl
  obtain ⟨hpfin, hp0⟩ := (fpInRange_iff p).mp hp
  have hnfin : fpIsFinite (fpNeg l) = true := (fpIsFinite_neg l).trans hlfin
  obtain ⟨hcoef, hpos, hone⟩ := ltCoefficient_bounds hvalid l p
  generalize ltCoefficient c l p = a at *
  rw [← fpVal_neg]
  obtain ⟨hdfin, hdlo, hdhi⟩ := fpSub_between c.nan hpfin hlfin hnfin hpfin (by rw [fpVal_neg]; omega) (by omega)
  refine fpMul_between c.nan hcoef hdfin hnfin hpfin ?_ ?_
  · calc fpVal (fpNeg l) * 2 ^ 149 ≤ fpVal (fpNeg l) * fpVal a :=
          mul_le_mul_of_nonpos_left hone (by rw [fpVal_neg]; omega)
      _ = fpVal a * fpVal (fpNeg l) := mul_comm _ _
      _ ≤ fpVal a * fpVal (fpSub c.nan p l) := mul_le_mul_of_nonneg_left hdlo hpos.le
  · calc fpVal a * fpVal (fpSub c.nan p l) ≤ fpVal a * fpVal p := mul_le_mul_of_nonneg_left hdhi hpos.le
      _ ≤ 2 ^ 149 * fpVal p := mul_le_mul_of_nonneg_right hone hp0
      _ = fpVal p * 2 ^ 149 := mul_comm _ _

/-- Settles O53: the level and the correction of `ltCorrection_between` have a sum between 0 and `l + p`. -/
theorem trackerKeepsRangeBelowTheTop : Obligations.TrackerKeepsRangeBelowTheTop := by
  intro c hc hvalid l p hl hp
  obtain ⟨hmfin, hmlo, hmhi⟩ := ltCorrection_between hvalid hl hp
  obtain ⟨hlfin, hl0⟩ := (fpInRange_iff l).mp hl
  rw [ltStep_reference hc]
  obtain ⟨hnan, hnonneg⟩ := fpSum_nonneg c.nan .add hlfin hmfin (by omega)
  refine ⟨hnan, hnonneg, fun hle hpe => fpSum_isFinite c.nan .add hlfin hmfin ?_⟩
  have hlmax := (le_abs_self _).trans (abs_fpVal_le_of_fpExp hle)
  have hpmax := (le_abs_self _).trans (abs_fpVal_le_of_fpExp hpe)
  rw [abs_of_nonneg (by omega)]
  omega

/-- EX7 with ATTACK = 1. -/
def fullAttack : Config := { Config.ex7 with attack := 0x3F800000#32 }

theorem fullAttack_valid : fullAttack.valid = true := by decide +kernel

/-- From the level 3*2^103 the greatest finite power makes the level overflow: both roundings go up (log 18). -/
theorem ltStep_fullAttack_overflows : ltStep fullAttack 0x73C00000#32 0x7F7FFFFF#32 = 0x7F800000#32 := by
  decide +kernel

/-- Refutes O54: with ATTACK = 1, `ltStep_fullAttack_overflows`. -/
theorem not_trackerKeepsRangeAsTheSpecSays : ¬ Obligations.TrackerKeepsRangeAsTheSpecSays := by
  intro h
  have hrange := h fullAttack rfl fullAttack_valid 0x73C00000#32 0x7F7FFFFF#32 (by decide) (by decide)
  rw [ltStep_fullAttack_overflows] at hrange
  exact absurd hrange (by decide)

end Sys2Proof.Machine
end

section
/-! PIPE.PROCESS (43_pipeline R180 to R184): what it leaves, said once in the operations of the FIR, LT and FIFO units;
that it is those units' commands back to back; and that no command off port C waits. -/

namespace Sys2Proof.Machine

/-! ### No command off port C waits -/

/-- Every command but FIFO.READ ends with one record, no TIMEOUT, and leaves the waiting read. -/
theorem Effect.answered {i : Instr} {s t : State} (h : Effect s t i) (hread : ∀ len, i ≠ .fifoRead len) :
    ∃ r, t.results = s.answered r ∧ r.status ≠ .timeout ∧ t.rdwait = s.rdwait := by
  cases i with
  | firReset | ltReset | ltUpdate | ltRead | fifoReset | fifoAvailRd | fifoAvailWr =>
    subst h; exact ⟨_, rfl, Status.noConfusion, rfl⟩
  | firProcess => obtain ⟨-, rfl⟩ | ⟨-, rfl⟩ := h <;> exact ⟨_, rfl, Status.noConfusion, rfl⟩
  | fifoWrite =>
    obtain ⟨-, rfl⟩ | ⟨-, -, rfl⟩ | ⟨-, -, rfl⟩ := h <;> exact ⟨_, rfl, Status.noConfusion, rfl⟩
  | fifoRead len => exact absurd rfl (hread len)
  | pipeProcess =>
    obtain ⟨-, rfl⟩ | ⟨-, -, -, -, -, ⟨-, rfl⟩ | ⟨-, rfl⟩⟩ := h <;> exact ⟨_, rfl, Status.noConfusion, rfl⟩

/-- Settles O19: off port C a command has no effect but ILLEGAL's, or it is no FIFO.READ. -/
theorem producerNeverWaits : Obligations.ProducerNeverWaits := by
  intro i s hport
  obtain ⟨t, ht⟩ := exec_answers (i := i) (.inr hport)
  obtain ⟨-, rfl⟩ | ⟨hrow, heff⟩ := exec_next ht
  · exact ⟨_, _, ht, rfl, Status.noConfusion, rfl⟩
  · have hread : ∀ len, i ≠ .fifoRead len := by
      rintro len rfl
      exact hport (List.mem_singleton.mp hrow)
    obtain ⟨r, hr⟩ := heff.answered hread
    exact ⟨t, r, ht, hr⟩

/-! ### The commands that PIPE.PROCESS composes -/

/-- On port P a command of that port's rows leaves what its meaning there leaves (30_encoding R78). -/
theorem onPorts_producer {s t u : State} (hp : s.active = .producer) (h : t = u) :
    onPorts [.producer] s (.next t) = .next u := by
  rw [onPorts_legal (List.mem_singleton.mpr hp), h]

/-- The state after LT.UPDATE of a power within its contract (42_level_tracker R163). -/
def State.levelUpdated (s : State) (p : F32) : State :=
  (s.setLevel (ltStep s.cfg s.level p)).finishOk (ltStep s.cfg s.level p)

theorem exec_ltUpdate_inContract {s : State} {p : F32} (hp : s.active = .producer) (hin : outOfContract p = false) :
    exec (.ltUpdate p) s = .next (s.levelUpdated p) := by
  refine onPorts_producer hp ?_
  rw [ltUpdate, if_neg (by simp [hin]), State.levelUpdated]

/-- The peak of a block is within LT.UPDATE's contract (41_filter R136, 42_level_tracker R165). -/
theorem outOfContract_peakPower (r : NanRule) (ys : List Sample) : outOfContract (peakPower r ys) = false := by
  obtain ⟨hnan, hsign⟩ := peakPower_ok r ys
  rw [← Bool.not_eq_true, outOfContract_iff]
  simp [hnan, hsign]

/-- FIFO.WRITE of some bytes drops them all or writes them all (40_fifo R101). -/
theorem exec_fifoWrite_nonzero {s : State} {len : BitVec 24} (bs : List Byte) (hp : s.active = .producer)
    (hne : len ≠ 0) :
    exec (.fifoWrite len bs) s = .next
      (if s.noRoom len.toNat then (s.dropped len.toNat (len.toNat / 8)).finish ⟨.dropped, 0, .none⟩
      else (s.push len.toNat bs).finishOk (len.setWidth 32)) := by
  refine onPorts_producer hp ?_
  rw [fifoWrite, if_neg hne]

/-! ### What PIPE.PROCESS leaves -/

/-- The outputs of a block (43_pipeline R180). -/
def State.blockOutputs (s : State) (xs : List Sample) : List Sample := firOutputs s.cfg s.hist xs

/-- The peak power of a block's outputs (43_pipeline R180). -/
def State.blockPeak (s : State) (xs : List Sample) : F32 := peakPower s.cfg.nan (s.blockOutputs xs)

@[simp] theorem State.blockOutputs_length (s : State) (xs : List Sample) :
    (s.blockOutputs xs).length = xs.length / 2 :=
  firOutputs_length s.cfg xs s.hist

/-- The level that an accepted block leaves: one tracker step with the peak of its outputs (43_pipeline R180). -/
def State.blockLevel (s : State) (xs : List Sample) : F32 :=
  ltStep s.cfg s.level (s.blockPeak xs)

/-- The state before the write or the drop: the history has advanced, and the level after it (43_pipeline R182). -/
def State.tracked (s : State) (xs : List Sample) : State :=
  ({ s with hist := firHistory s.hist xs }).setLevel (s.blockLevel xs)

section
variable {s : State} {len : BitVec 24} (hp : s.active = .producer) (xs : List Sample)
include hp

theorem exec_pipeProcess_badLen (hbad : badLength s.cfg len = true) :
    exec (.pipeProcess len (xs.flatMap fun x => [x.i, x.q])) s = .next s.completeBadLen := by
  refine onPorts_producer hp ?_
  rw [pipeProcess, if_pos hbad]

/-- An accepted block is tracked, and then dropped whole or written whole (43_pipeline R181). -/
theorem exec_pipeProcess_accepted (heven : len.toNat % 2 = 0) (hmin : s.cfg.minIn ≤ len.toNat) :
    exec (.pipeProcess len (xs.flatMap fun x => [x.i, x.q])) s = .next
      (if s.noRoom (4 * len.toNat) then
        ((s.tracked xs).dropped (4 * len.toNat) (len.toNat / 2)).finish ⟨.dropped, s.blockLevel xs, .none⟩
      else ((s.tracked xs).push (4 * len.toNat) (ser (s.blockOutputs xs))).finishOk (s.blockLevel xs)) := by
  have hgood : ¬ badLength s.cfg len = true := by simp [badLength_false_iff.mpr ⟨heven, hmin⟩]
  have hbytes : 8 * (len.toNat / 2) = 4 * len.toNat := by omega
  refine onPorts_producer hp ?_
  rw [pipeProcess, if_neg hgood, pipeAccepted, samplesOf_flatMap, hbytes]
  rfl

end

/-- Settles O55: `exec_pipeProcess_accepted`, its outputs read from their windows and its bytes from the storage. -/
theorem pipeFiltersTracksAndWritesOrDrops : Obligations.PipeFiltersTracksAndWritesOrDrops := by
  intro s len xs hp hT hlen
  refine ⟨fun hbad => exec_pipeProcess_badLen hp xs (badLength_iff.mpr hbad), fun heven hmin => ?_⟩
  have hexec := exec_pipeProcess_accepted hp xs heven hmin
  have hhist : firHistory s.hist xs = (xs.reverse ++ s.hist).take s.cfg.tapCount := by rw [firHistory_eq, hT]
  refine ⟨s.blockOutputs xs, s.blockLevel xs, by rw [State.blockOutputs_length, hlen],
    fun n hn => firOutputs_get_windowAt hT (by omega), rfl, fun hfull => ?_, fun hroom => ?_⟩
  · rw [hexec, if_pos (State.noRoom_iff.mpr hfull), ← hhist, List.append_cons]
    rfl
  · have hbytes : (ser (s.blockOutputs xs)).length = 4 * len.toNat := by
      rw [ser_length, State.blockOutputs_length, hlen]
      omega
    refine ⟨memWrite s.capacity s.head (ser (s.blockOutputs xs)) s.buf, ?_, ?_, ?_⟩
    · rw [hexec, if_neg (by rwa [State.noRoom_iff, Nat.not_lt]), ← hhist, List.append_cons]
      rfl
    · rw [← hbytes] at hroom ⊢
      exact memWrite_read_inside _ _ _ _ (hroom.trans (Nat.sub_le _ _))
    · rw [← hbytes]
      exact memWrite_read_outside _ _ _ _

/-- FIR.PROCESS and LT.UPDATE leave the room in the FIFO. -/
theorem noRoom_levelUpdated_filtered (s : State) (xs : List Sample) (p : F32) (n : Nat) :
    ((s.filtered xs).levelUpdated p).noRoom n = s.noRoom n := rfl

/-- Settles O57: the three commands and PIPE.PROCESS apply the same operations, and find the same room. -/
theorem pipeEqualsFilterTrackWrite : Obligations.PipeEqualsFilterTrackWrite := by
  intro s len xs hp hlen heven hmin hpos hfits
  have hbytes : (4 * len).toNat = 4 * len.toNat := BitVec.toNat_mul_of_lt hfits
  have hsamples : (4 * len).toNat / 8 = len.toNat / 2 := by omega
  have hne : 4 * len ≠ 0 := by
    rw [Ne, ← BitVec.toNat_inj, hbytes]
    exact Nat.mul_ne_zero four_ne_zero hpos.ne'
  have hfir := exec_firProcess_accepted hp xs heven hmin
  have hlt := exec_ltUpdate_inContract (s := s.filtered xs) hp (outOfContract_peakPower s.cfg.nan (s.blockOutputs xs))
  have hwrite := exec_fifoWrite_nonzero (s := (s.filtered xs).levelUpdated (s.blockPeak xs))
    (ser (s.blockOutputs xs)) hp hne
  have hpipe := exec_pipeProcess_accepted hp xs heven hmin
  rw [hsamples, hbytes, noRoom_levelUpdated_filtered] at hwrite
  by_cases hfull : s.noRoom (4 * len.toNat) = true
  · rw [if_pos hfull] at hwrite hpipe
    exact ⟨_, _, _, _, _, s.blockOutputs xs, .dropped, _, hfir, rfl, hlt, hwrite, rfl, hpipe, rfl⟩
  · rw [if_neg hfull] at hwrite hpipe
    exact ⟨_, _, _, _, _, s.blockOutputs xs, .ok, _, hfir, rfl, hlt, hwrite, rfl, hpipe, rfl⟩

end Sys2Proof.Machine
end

section
/-! How commands end (60_exceptions R200 to R207): ILLEGAL before BAD_LEN before DROPPED, the timeout of a read whose
bytes stay short, and the one cause of each model fault. -/

namespace Sys2Proof.Machine

/-! ### The status of a block of a bad length -/

/-- On port P a block of a bad length changes nothing but the records, whatever its payload and the room in the FIFO. -/
theorem Effect.of_badLength {i : Instr} {s t : State} {len : BitVec 24} {payload : List F32}
    (hi : i = .firProcess len payload ∨ i = .pipeProcess len payload) (hbad : badLength s.cfg len = true)
    (h : Effect s t i) : t = { s with results := s.answered ⟨.badLen, 0, .none⟩ } := by
  have hnot : ¬ badLength s.cfg len = false := by simp [hbad]
  obtain rfl | rfl := hi <;> exact (Or.resolve_right h fun ⟨hgood, _⟩ => hnot hgood).right

/-- Settles O13: the port check comes first, and on port P the length alone decides. -/
theorem illegalBeforeBadLengthBeforeDropped : Obligations.IllegalBeforeBadLengthBeforeDropped := by
  intro s len payload i hi hbad
  have hports : i.opcode.ports = [.producer] := by obtain rfl | rfl := hi <;> rfl
  have hread : ∀ len, i ≠ .fifoRead len := by obtain rfl | rfl := hi <;> exact fun _ => Instr.noConfusion
  refine ⟨fun hp => exec_of_wrong_port (by simpa [hports] using hp), fun hp => ?_⟩
  obtain ⟨t, ht, heff⟩ := exec_effect hread (by simpa [hports] using hp)
  exact heff.of_badLength hi (badLength_iff.mpr hbad) ▸ ht

/-! ### Which command records which model fault -/

/-- A command on a port of its row records the fault `f` from the state `s` (60_exceptions R207). -/
def RecordsFault (s : State) (i : Instr) : ModelFault → Prop
  | .ltContract => ∃ p, i = .ltUpdate p ∧ outOfContract p = true
  | .resetRace => i = .fifoReset ∧ s.rdwait ≠ none

/-- Only LT.UPDATE and FIFO.RESET record a model fault (`Effect.faults`), and each does whenever it has the cause. -/
theorem Effect.has_fault_iff {i : Instr} {s t : State} (h : Effect s t i) (f : ModelFault) :
    t.faults.has f = true ↔ s.faults.has f = true ∨ RecordsFault s i f := by
  cases i with
  | ltUpdate p =>
    subst h
    cases f <;> by_cases hp : outOfContract p = true <;> simp [RecordsFault, hp]
  | fifoReset =>
    subst h
    cases f <;> by_cases hr : s.rdwait = none <;> simp [RecordsFault, hr]
  | firReset | firProcess | ltReset | ltRead | fifoWrite | fifoRead | fifoAvailRd | fifoAvailWr | pipeProcess =>
    have hkept : t.faults = s.faults := by
      obtain ht | ⟨_, hi, -⟩ | ⟨hi, -⟩ := h.faults
      · exact ht
      · cases hi
      · cases hi
    cases f <;> simp [RecordsFault, hkept]

/-- A command that may record a fault does so on the one port of its row (30_encoding R78). -/
theorem exec_has_fault_iff {i : Instr} {s t : State} (h : exec i s = .next t) (f : ModelFault) :
    t.faults.has f = true ↔ s.faults.has f = true ∨ s.active ∈ i.opcode.ports ∧ RecordsFault s i f := by
  obtain ⟨hport, rfl⟩ | ⟨hport, heff⟩ := exec_next h
  · simp [hport]
  · simp [hport, heff.has_fault_iff f]

/-- Settles O20: LT.UPDATE's row lists port P alone and FIFO.RESET's port K alone; `outOfContract_iff` words the
contract as R165 does. -/
theorem modelFaultsHaveOneCauseEach : Obligations.ModelFaultsHaveOneCauseEach := by
  intro i s t h
  rw [exec_has_fault_iff h, exec_has_fault_iff h]
  refine ⟨or_congr_right ⟨?_, ?_⟩, or_congr_right ⟨?_, ?_⟩⟩
  · rintro ⟨hport, p, rfl, hp⟩
    exact ⟨p, rfl, List.mem_singleton.mp hport, (outOfContract_iff p).mp hp⟩
  · rintro ⟨p, rfl, hport, hp⟩
    exact ⟨List.mem_singleton.mpr hport, p, rfl, (outOfContract_iff p).mpr hp⟩
  · rintro ⟨hport, rfl, hwait⟩
    exact ⟨rfl, List.mem_singleton.mp hport, hwait⟩
  · rintro ⟨rfl, hport, hwait⟩
    exact ⟨List.mem_singleton.mpr hport, rfl, hwait⟩

/-! ### A wait that ends in TIMEOUT -/

/-- `timeout_read` of 40_fifo R104, at the step in which port C's wait ends while the bytes are short. -/
theorem step_timesOut {s : State} {len : BitVec 24} (hr : s.rdwait = some len)
    (hs : s.sched = [] ∨ ∃ ps, s.sched = .consumer :: ps) (hshort : s.count < len.toNat) :
    step s = .next { s with
      sched := s.sched.tail, active := .consumer, rdwait := none,
      results := s.results.set .consumer (s.results.get .consumer ++ [⟨.timeout, 0, .none⟩]) } :=
  (step_endsWait hr hs).trans (if_neg (Nat.not_le.mpr hshort))

/-- Settles O28: the FIFO never holds more than `N` bytes (`State.Inv`), so a read of more finds them short when it is
issued and when its wait ends (70_reset R238). -/
theorem shortWaitEndsInTimeout : Obligations.ShortWaitEndsInTimeout := by
  refine ⟨fun s len hr hs hshort => step_timesOut hr hs hshort, fun s len hinv hlen => ?_⟩
  have hshort : s.count < len.toNat := hinv.count_le.trans_lt hlen
  refine ⟨fun hp => ?_, fun hr hs => step_timesOut hr hs hshort⟩
  obtain ⟨t, ht⟩ := exec_answers_of_written hinv.valid_written (.fifoRead len)
  have heff : Effect s t (.fifoRead len) := effect_of_exec ht (List.mem_singleton.mpr hp)
  exact heff.fifoRead_waits hshort ▸ ht

end Sys2Proof.Machine
end

section
/-! Power-on, runs and their end (70_reset R230, R243, R244): each turn of a port with something left to do brings it
nearer to its end, so an interleaving with turns enough for every port ends the run. -/

namespace Sys2Proof.Machine

/-! ### Power-on -/

/-- Settles O1: the effects of the three resets, in the order of their own statements, on a block at power-on. -/
theorem powerOnStateIsResetState : Obligations.PowerOnStateIsResetState := by
  intro c
  refine ⟨State.powerOn c, rfl, rfl, rfl, rfl, rfl, rfl, Memory.read_nil, rfl, fun f => ?_, rfl, rfl,
    _, _, _, fifoResetEmptiesTheFifo _ rfl, firResetZeroesHistory _ rfl, ltResetSetsNeutralLevel _ rfl, rfl⟩
  cases f <;> rfl

/-! ### Turns with nothing to do -/

/-- Settles O15: the two steps that take no command and end no wait. -/
theorem idleStepChangesNothing : Obligations.IdleStepChangesNothing :=
  ⟨fun _ _ _ => step_without_command, fun _ => step_without_turn⟩

/-- The end of a run, for every port at once (70_reset R244). -/
theorem State.runEnded_iff (s : State) : s.runEnded = true ↔ (∀ p, s.inbox.get p = []) ∧ s.rdwait = none := by
  simp only [State.runEnded, Bool.and_eq_true, List.isEmpty_iff, Option.isNone_iff_eq_none]
  refine and_congr_left' ⟨?_, fun h => ⟨⟨h .producer, h .consumer⟩, h .control⟩⟩
  rintro ⟨⟨hproducer, hconsumer⟩, hcontrol⟩ (_ | _ | _)
  · exact hproducer
  · exact hconsumer
  · exact hcontrol

/-- With no command left and no read waiting, whose turn it is makes no difference. -/
theorem step_of_runEnded {s : State} (h : s.runEnded = true) :
    ∃ ps p, step s = .next { s with sched := ps, active := p } := by
  obtain ⟨hinbox, hwait⟩ := s.runEnded_iff.mp h
  match hs : s.sched with
  | [] => exact ⟨s.sched, s.active, step_without_turn hs hwait⟩
  | p :: ps => exact ⟨ps, p, step_without_command hs (fun _ => hwait) (hinbox p)⟩

/-- Settles O23: `State.runEnded_iff`, and `step_of_runEnded` on a state whose end the turns have no part in. -/
theorem endedRunChangesNothing : Obligations.EndedRunChangesNothing := by
  refine fun s => ⟨s.runEnded_iff, rfl, fun hended => ?_⟩
  obtain ⟨ps, p, hstep⟩ := step_of_runEnded hended
  exact ⟨_, hstep, hended, rfl⟩

/-! ### Every run can end -/

/-- Turns of port `p` that surely bring it to its end (70_reset R244): two for each command, as a read may wait for a
second one, and one for the read that waits already. -/
def State.turnsNeeded (s : State) (p : Port) : Nat :=
  2 * (s.inbox.get p).length + if p = .consumer ∧ s.rdwait ≠ none then 1 else 0

theorem State.runEnded_of_turnsNeeded {s : State} (h : ∀ p, s.turnsNeeded p = 0) : s.runEnded = true := by
  refine s.runEnded_iff.mpr ⟨fun p => ?_, ?_⟩
  · have hp := h p
    exact List.length_eq_zero_iff.mp (by unfold State.turnsNeeded at hp; omega)
  · have hconsumer := h .consumer
    by_contra hwait
    simp [State.turnsNeeded, hwait] at hconsumer

/-- A command that the port has taken leaves at most a wait to end. -/
theorem Accounted.turnsNeeded_le {s t : State} (h : Accounted s t) (q : Port) :
    t.turnsNeeded q ≤ s.turnsNeeded q + if q = s.active then 1 else 0 := by
  unfold State.turnsNeeded
  cases h with
  | answered r _ hinbox hwait =>
    rw [hinbox, hwait]
    exact Nat.le_add_right _ _
  | waits hport hfree _ hinbox hwait => simp [hport, hfree, hinbox, hwait]

/-- Taking a command spends the two turns it counts for. -/
theorem State.turnsNeeded_takes {s : State} {p : Port} {c : Command} {cs : List Command}
    (hi : s.inbox.get p = c :: cs) (ps : List Port) (q : Port) :
    s.turnsNeeded q = State.turnsNeeded { s with sched := ps, active := p, inbox := s.inbox.set p cs } q +
      if q = p then 2 else 0 := by
  unfold State.turnsNeeded
  dsimp only
  by_cases hq : q = p
  · rw [if_pos hq, hq, PerPort.get_set_same, hi, List.length_cons]
    omega
  · rw [if_neg hq, PerPort.get_set_ne _ _ hq]
    rfl

theorem endWait_turnsNeeded {len : BitVec 24} {s t : State} (hr : s.rdwait = some len)
    (h : endWait len { s with sched := s.sched.tail, active := .consumer } = .next t) (q : Port) :
    t.turnsNeeded q = s.turnsNeeded q - if q = .consumer then 1 else 0 := by
  have hdone : t.inbox = s.inbox ∧ t.rdwait = none := by
    obtain ⟨-, bs, -, rfl⟩ | ⟨-, rfl⟩ := endWait_next h <;> exact ⟨rfl, rfl⟩
  obtain ⟨hinbox, hwait⟩ := hdone
  simp [State.turnsNeeded, hinbox, hwait, hr]

/-- A turn of port `p` brings it nearer to its end, unless it is there, and leaves the other ports where they are. -/
theorem step_turnsNeeded_le {s t : State} {p : Port} {ps : List Port} (hs : s.sched = p :: ps)
    (h : step s = .next t) (q : Port) : t.turnsNeeded q ≤ s.turnsNeeded q - if q = p then 1 else 0 := by
  obtain ⟨hs', -⟩ | ⟨len, hturn, hr, hend⟩ | ⟨p', ps', hs', hp, hi, rfl⟩ | ⟨p', ps', c, cs, hs', hp, hi, hrun⟩ :=
    step_next h
  · simp [hs] at hs'
  · obtain rfl : p = .consumer := by simpa [hs] using hturn
    exact (endWait_turnsNeeded hr hend q).le
  · obtain ⟨rfl, -⟩ := List.cons.inj (hs.symm.trans hs')
    have hdone : s.turnsNeeded p = 0 := by simpa [State.turnsNeeded, hi] using hp
    change s.turnsNeeded q ≤ _
    split
    · next hq => rw [hq, hdone]
    · exact le_rfl
  · obtain ⟨rfl, -⟩ := List.cons.inj (hs.symm.trans hs')
    have htaken : Accounted { s with sched := ps', active := p, inbox := s.inbox.set p cs } t := by
      obtain ⟨i, -, hexec⟩ | ⟨-, -, -, rfl⟩ := hrun
      · exact exec_accounted hp hexec
      · exact .answered ⟨.illegal, 0, .none⟩ rfl rfl rfl
    have hle := htaken.turnsNeeded_le q
    rw [State.turnsNeeded_takes hi ps' q]
    by_cases hq : q = p <;> simp only [hq, if_true, if_false] at hle ⊢ <;> omega

/-- Along a run every port has had its turns, and every command stays accounted for. -/
theorem run_turnsNeeded_le {s : State} (hinv : s.Inv) (hfits : s.inboxFits = true) :
    ∃ t, Sys2Proof.core.run s.sched.length s = .next t ∧
      ∀ p, t.turnsNeeded p ≤ s.turnsNeeded p - s.sched.count p ∧ t.commandCount p = s.commandCount p := by
  induction hs : s.sched generalizing s with
  | nil => exact ⟨s, rfl, fun p => ⟨le_rfl, rfl⟩⟩
  | cons q qs ih =>
    obtain ⟨-, -, hanswers⟩ := noStepReadsUnwrittenCell s hinv
    obtain ⟨u, hu⟩ := hanswers hfits
    obtain ⟨t, hrun, ht⟩ := ih (step_inv hinv hu) (step_inboxFits hinv hfits hu)
      (by rw [step_sched hinv hu, hs, List.tail_cons])
    refine ⟨t, (run_succ_of_step hu qs.length).trans hrun, fun p => ?_⟩
    obtain ⟨hturns, hcount⟩ := ht p
    refine ⟨hturns.trans ?_, hcount.trans (everyCommandLeavesOneRecord s u hu p)⟩
    have hstep := step_turnsNeeded_le hs hu p
    simp only [List.count_cons, beq_iff_eq, eq_comm (a := q)]
    omega

/-- An interleaving that gives every port the turns it needs. -/
def State.turnsToEnd (s : State) : List Port :=
  [Port.producer, .consumer, .control].flatMap fun p => List.replicate (s.turnsNeeded p) p

theorem State.count_turnsToEnd (s : State) (p : Port) : s.turnsToEnd.count p = s.turnsNeeded p := by
  cases p <;> simp [State.turnsToEnd, List.count_replicate]

/-- Settles O24: under `State.turnsToEnd` no port needs a turn any more, and all that `State.commandCount` counts are
then records. -/
theorem everyRunCanEnd : Obligations.EveryRunCanEnd := by
  intro s hinv hfits
  obtain ⟨t, hrun, ht⟩ := run_turnsNeeded_le (hinv.taken s.turnsToEnd s.active s.inbox) hfits
  have hended : t.runEnded = true := State.runEnded_of_turnsNeeded fun p => by
    obtain ⟨hturns, -⟩ := ht p
    rw [State.count_turnsToEnd] at hturns
    exact Nat.le_zero.mp (hturns.trans_eq (Nat.sub_self _))
  refine ⟨s.turnsToEnd, _, t, hrun, hended, fun p => ?_⟩
  obtain ⟨hinbox, hwait⟩ := t.runEnded_iff.mp hended
  obtain ⟨-, hcount⟩ := ht p
  simpa [State.commandCount, hinbox, hwait] using hcount

end Sys2Proof.Machine
end
